-- ==== Sys2Proof/Word.lean ====
section
/-!
DEFINITION. The word types of the GPU_dot_product integer ALU block (00_scope.md R7, R9, R10;
30_encoding.md R70). Bit `i` of each has weight `2^i`.
-/

namespace Sys2Proof

/-- A `w`-bit value of the block, unsigned (R9, R10): an operand, a lane register, an ALU result,
an SM local-memory cell. -/
abbrev Word (w : Nat) := BitVec w

/-- One global-memory cell, `CELL_W = 32` bits (R7). -/
abbrev Cell := BitVec 32

/-- The 3-bit opcode field `code[2:0]`, the whole instruction (R70). -/
abbrev Code := BitVec 3

/-- `(A, B)`: two `w`-bit values awaiting one ALU operation (R13). -/
structure OperandPair (w : Nat) where
  A : Word w
  B : Word w
  deriving DecidableEq, Repr

/-- The `(0,0)` pair an SM pads a short chunk with (43_sm.md R171). -/
abbrev paddingPair (w : Nat) : OperandPair w := ⟨0, 0⟩

end Sys2Proof
end

