-- ==== Sys2Proof/Config.lean ====
section
/-!
DEFINITION. The construction-time parameters of the block (00_scope.md R5, R6; 92_eei_decisions.md
D18, D29). The spec leaves their values OPEN, so the instance that `State.reset` starts from is an
opaque constant: nothing that is proved of it rests on a particular value. Log entry 1.
-/

namespace Sys2Proof

/-- `W`, `S`, `WP`, `L`, `G` with their lower bounds (R5). A configuration that breaks a bound is no
instance of the hardware and has no term of this type (D18). The default of every field is the
least value in bounds; it only shows that the type has a member. -/
structure Config where
  /-- the ALU width, the source's `bitWidth` -/
  W : Nat := 1
  /-- the number of SMs, `numSMs` -/
  S : Nat := 1
  /-- warps per SM, `warpsPerSM` -/
  WP : Nat := 1
  /-- lanes per warp, `lanesPerWarp` -/
  L : Nat := 1
  /-- the number of global-memory cells, `globalMemorySize` -/
  G : Nat := 1
  hW : 1 ≤ W := by decide
  hS : 1 ≤ S := by decide
  hWP : 1 ≤ WP := by decide
  hL : 1 ≤ L := by decide
  hG : 1 ≤ G := by decide
  deriving DecidableEq, Repr, Inhabited

/-- The SM capacity `CAP = WP × L`, the same for every SM (R6). -/
def Config.CAP (c : Config) : Nat := c.WP * c.L

/-- The parameters the block was built with: fixed for its life, OPEN in the spec (D29).
Safe: a statement about it holds for every configuration in bounds. -/
opaque Config.built : Config

end Sys2Proof
end

