-- ==== Sys2Proof/Syntax.lean ====
section
/-!
DEFINITION. Instructions, the forms an opcode is presented in, and the records the host's requests
are made of (30_encoding.md R70 to R82). What is well-formed among them is in WellFormed.lean.
-/

namespace Sys2Proof

/-- The eight ALU opcodes, one constructor per row of spec/opcode_table.json (R72). An instruction
is exactly its 3-bit code: no immediate, no register specifier (R70). -/
inductive Instr
  | add
  | sub
  | and
  | or
  | xor
  | mul
  | div
  | nop
  deriving DecidableEq, Repr

/-- What the ControlDecoder answers: a named operation or the INVALID sentinel, which is distinct
from NOP (41_alu.md R120, R121). -/
inductive Decoded
  | op (i : Instr)
  | invalid
  deriving DecidableEq, Repr

/-- The forms a code is presented in: the 3-bit port, and the wider or textual forms of an
integer-facing interface, the only ones that can be malformed (R71, R73). -/
inductive CodeForm
  /-- the 3-bit opcode port -/
  | bits (code : Code)
  /-- a number, in the domain when it lies in `[0, 8)` -/
  | number (n : Int)
  /-- a string of characters, in the domain when it is three binary digits -/
  | text (chars : List Char)
  deriving DecidableEq, Repr

/-- An operand record of LOAD (R77), as it is written. -/
inductive Operand
  /-- `Vec(len, data)` -/
  | vec (len : Nat) (data : List Int)
  /-- `Mat(rows, cols, data)`, `data` in row-major order -/
  | mat (rows cols : Nat) (data : List Int)
  deriving DecidableEq, Repr

/-- The `name` field of LOAD (R78). -/
inductive OpName
  | dot
  | matmul
  | other (tag : String)
  deriving DecidableEq, Repr

/-- One request to the block: the four Device commands of the host interface (R76), and the direct
use of an ALU port by a component-level caller, `ALU <MNEMONIC> a, b` (R79, R82, D28). -/
inductive Command
  | load (opA opB : Operand) (name : OpName)
  | partition
  | execute (code : Code)
  | reconstruct
  | alu (a b : Int) (code : CodeForm)
  deriving DecidableEq, Repr

end Sys2Proof
end

