-- ==== Sys2Proof/WellFormed.lean ====
section
/-!
DEFINITION. Which written terms are terms of the spec: configurations in bounds (00_scope.md R5),
codes in the 3-bit domain (30_encoding.md R73), operand records whose data has the length they
declare (R77). Every constructor of `Instr` is well-formed: all eight codes are assigned (R74).
-/

namespace Sys2Proof

/-- Five numbers are a configuration when each is at least 1; the model refuses any other
(R5, D18). -/
def Config.build? (W S WP L G : Nat) : Option Config :=
  if h : 1 ≤ W ∧ 1 ≤ S ∧ 1 ≤ WP ∧ 1 ≤ L ∧ 1 ≤ G then
    some { W, S, WP, L, G, hW := h.1, hS := h.2.1, hWP := h.2.2.1, hL := h.2.2.2.1, hG := h.2.2.2.2 }
  else none

/-- `Vec(len, data)` has `len` integers, `Mat(rows, cols, data)` has `rows × cols` (R77): a ragged
array cannot be written. -/
def Operand.wellFormed : Operand → Bool
  | .vec len data => data.length == len
  | .mat rows cols data => data.length == rows * cols

/-- A code in the 3-bit domain; the others decode to INVALID (R73). -/
def CodeForm.wellFormed : CodeForm → Bool
  | .bits _ => true
  | .number n => decide (0 ≤ n) && decide (n < 8)
  | .text chars => chars.length == 3 && chars.all fun d => d == '0' || d == '1'

/-- A request is well-formed when its operand records are. A direct ALU use may carry a malformed
code: its meaning is INVALID's (41_alu.md R134). -/
def Command.wellFormed : Command → Bool
  | .load opA opB _ => opA.wellFormed && opB.wellFormed
  | .partition | .execute _ | .reconstruct | .alu _ _ _ => true

/-- The requests that can be made: an ill-formed operand record cannot be written (R77, D9). -/
abbrev Request := { c : Command // c.wellFormed = true }

end Sys2Proof
end

