-- ==== Sys2Proof/Machine/State.lean ====
section
/-!
DEFINITION. The state of the block (10_state.md R20 to R37), as plain data, and its reset value
(R36). `Device` holds exactly the pieces of R20; `State` adds the construction parameters the
instance was built with and the model's own three fields for the host's side of the interface.
-/

namespace Sys2Proof.Machine

/-- The phase register (R22). -/
inductive Phase
  | empty
  | loaded
  | partitioned
  | executed
  deriving DecidableEq, Repr

/-- The operation register's two values (R24). -/
inductive Operation
  | dot
  | matmul
  deriving DecidableEq, Repr

/-- The operand store and shape (R25). `vectors` is DOT's, of length `N = a.length`; `matrices` is
MATMUL's, `a` the `m × k` and `b` the `k × n` array, each in row-major order. -/
inductive OperandStore (w : Nat)
  | empty
  | vectors (a b : List (Word w))
  | matrices (m k n : Nat) (a b : List (Word w))
  deriving DecidableEq, Repr

/-- One entry of the task map (R26): a flattened index for DOT, `(i, j, kIdx)` for MATMUL. -/
inductive TaskCoord
  | flat (p : Nat)
  | cell (i j kIdx : Nat)
  deriving DecidableEq, Repr

/-- One row of the chunk table (R26): the chunk is `pairs[start .. start + len)`. -/
structure Chunk where
  start : Nat
  len : Nat
  deriving DecidableEq, Repr

/-- A lane's three registers (R27): its operand pair and its result slot. -/
structure Lane (w : Nat) where
  A : Word w
  B : Word w
  R : Word w
  deriving DecidableEq, Repr

/-- A warp: its lanes, in lane order (42_lane_warp.md R151). -/
structure Warp (w : Nat) where
  lanes : List (Lane w)
  deriving DecidableEq, Repr

/-- A streaming multiprocessor: its warps, in order, and its local memory `LM[w][l]`
(43_sm.md R170, 20_memory.md R55). -/
structure SM (w : Nat) where
  warps : List (Warp w)
  localMem : List (List (Word w))
  deriving DecidableEq, Repr

/-- Global memory (20_memory.md R50) as the list of its cells that are not zero: `(c, v)` says that
cell `c` holds `v`, and an unlisted cell holds 0, the reset content (R52). Canonical form:
`Memory.wf`. -/
abbrev Memory := List (Nat × Cell)

/-- What an unlisted cell holds: global memory initializes to zero (R52). -/
abbrev unlistedCell : Cell := 0

/-- The canonical form: cell indices strictly rising, no listed cell equal to what an unlisted one
holds. Equal memories are then equal lists. -/
abbrev Memory.wf (m : Memory) : Prop :=
  m.Pairwise (fun x y => x.1 < y.1) ∧ ∀ e ∈ m, e.2 ≠ unlistedCell

/-- The state of a block whose ALU width is `w`: the list of R20, which is exact. -/
structure Device (w : Nat) where
  /-- R22 -/
  phase : Phase
  /-- the sticky fault bit, R23 -/
  fault : Bool
  /-- R24 -/
  operation : Operation
  /-- R25 -/
  store : OperandStore w
  /-- the flattened operand-pair stream, R26 -/
  pairs : List (OperandPair w)
  /-- R26 -/
  taskMap : List TaskCoord
  /-- the chunk table, one row per SM, R26 -/
  chunks : List Chunk
  /-- every SM, by position: its lanes (R27) and its local memory (R29) -/
  sms : List (SM w)
  /-- R30 -/
  gmem : Memory
  deriving DecidableEq, Repr

/-- Where an opcode is presented: at an ALU's integer-facing port with its two operands
(30_encoding.md R79, 41_alu.md R124), or at the Device's EXECUTE (30_encoding.md R75). -/
inductive Port
  | direct (a b : Int)
  | device
  deriving DecidableEq, Repr

/-- The status codes of a Device command (60_exceptions.md R240). -/
inductive Status
  | success
  | shapeError
  | unsupportedOperationError
  /-- reserved: never raised under the truncate policy (R244) -/
  | encodingError
  | sequenceError
  deriving DecidableEq, Repr

/-- The data of a successful RECONSTRUCT (10_state.md R34): an integer for DOT, an `m × n` array of
integers, row by row, for MATMUL. -/
inductive Data
  | scalar (n : Int)
  | array (rows : List (List Int))
  deriving DecidableEq, Repr

/-- What the block answers: `(status, data)` to a Device command (R34), the integer result of a
direct ALU use, which has no status (41_alu.md R124, R135). -/
inductive Response
  | device (status : Status) (data : Option Data)
  | alu (result : Int)
  deriving DecidableEq, Repr

/-- The machine: the block and the host's side of its interface. -/
structure State where
  /-- the construction parameters of this instance: read-only, never written by a command
  (10_state.md R32); log entry 1 -/
  cfg : Config
  /-- everything the spec calls state (R20) -/
  dev : Device cfg.W
  /-- MODEL'S OWN: where the opcode in progress was presented, written when a request is taken;
  log entry 7 -/
  port : Port
  /-- MODEL'S OWN: the requests of the run not yet taken, oldest first (70_reset_and_hazards.md
  R282); log entry 6 -/
  pending : List Request
  /-- MODEL'S OWN: the responses given so far, oldest first (R282); log entry 8 -/
  responses : List Response
  deriving DecidableEq, Repr

/-- Why a step stops the machine. The block itself has no fatal error (60_exceptions.md R241): both
reasons are for states that no run from reset reaches. -/
inductive Fault
  /-- Raised by a read or write of global memory (`memRead`, `memWrite`) at a cell index that does
  not exist, at or above `G` (20_memory.md R50). Safe: LOAD refuses every workload that would need
  such a cell (44_device.md R196). -/
  | cellOutOfRange (c : Nat)
  /-- Raised by PARTITION, EXECUTE or RECONSTRUCT when the operand store does not hold the operands
  or shape of the selected operation. Safe: LOAD writes both together (R197). -/
  | operandsMissing
  deriving DecidableEq, Repr

/-- Why a step gives no meaning. No request and no instruction of this model ends in one. -/
inductive Refusal
  /-- Raised by `exec` for an instruction that has no meaning yet; no arm raises it. Safe. -/
  | notModelled (mnemonic : String)
  deriving DecidableEq, Repr

/-- The answer of one step of this machine. -/
abbrev Answer := Host.Outcome State Fault Refusal

/-- A lane at reset: the spec leaves its registers unspecified (R36). DESIGN CHOICE zero, unsafe: log
entry 3. -/
def Lane.reset (w : Nat) : Lane w := ⟨0, 0, 0⟩

/-- An SM at reset: `WP` warps of `L` lanes and a `WP × L` local memory, whose contents the spec
leaves unspecified (R36). DESIGN CHOICE zero, unsafe: log entry 3. -/
def SM.reset (c : Config) : SM c.W where
  warps := List.replicate c.WP ⟨List.replicate c.L (Lane.reset c.W)⟩
  localMem := List.replicate c.WP (List.replicate c.L 0)

/-- The chunk table with every chunk empty, one row per SM (R36, R197; log entry 5). -/
def emptyChunks (S : Nat) : List Chunk := List.replicate S ⟨0, 0⟩

/-- The block right after construction (R36). The operation register is unspecified; DESIGN CHOICE DOT,
unsafe: log entry 3. -/
def Device.reset (c : Config) : Device c.W where
  phase := .empty
  fault := false
  operation := .dot
  store := .empty
  pairs := []
  taskMap := []
  chunks := emptyChunks c.S
  sms := List.replicate c.S (SM.reset c)
  gmem := []

/-- Construction with the parameters `c` (70_reset_and_hazards.md R270), no request made yet. -/
def State.construct (c : Config) : State where
  cfg := c
  dev := Device.reset c
  port := .direct 0 0
  pending := []
  responses := []

/-- The machine right after reset, which is construction (R270), for the instance that was built. -/
def State.reset : State := State.construct Config.built

end Sys2Proof.Machine
end

