-- ==== Sys2Proof/Machine/Ops.lean ====
section
/-!
DEFINITION. The named operations over memory and over the host's side of the interface: reading and
writing one global-memory cell (20_memory.md R50 to R52), answering a request (10_state.md R34), and
raising an error (60_exceptions.md R241), which is the one place an error's effect is written.
-/

namespace Sys2Proof.Machine

/-- The phase register's encoding (R22). -/
def Phase.code : Phase → BitVec 2
  | .empty => 0
  | .loaded => 1
  | .partitioned => 2
  | .executed => 3

/-- The numeric status codes (R240). -/
def Status.code : Status → Nat
  | .success => 0
  | .shapeError => 1
  | .unsupportedOperationError => 2
  | .encodingError => 3
  | .sequenceError => 4

/-- The contents of cell `c`: an unlisted cell holds 0 (R52). -/
def Memory.read : Memory → Nat → Cell
  | [], _ => unlistedCell
  | (k, x) :: rest, c => if k = c then x else Memory.read rest c

/-- The memory with cell `c` holding `v`, in canonical form. -/
def Memory.write : Memory → Nat → Cell → Memory
  | [], c, v => if v = unlistedCell then [] else [(c, v)]
  | (k, x) :: rest, c, v =>
    if c < k then
      if v = unlistedCell then (k, x) :: rest else (c, v) :: (k, x) :: rest
    else if c = k then
      if v = unlistedCell then rest else (c, v) :: rest
    else (k, x) :: Memory.write rest c v

/-- `MemRead(c, 1)`: one whole cell of a `G`-cell global memory (R50). -/
def memRead (G : Nat) (m : Memory) (c : Nat) : Except Fault Cell :=
  if c < G then .ok (m.read c) else .error (.cellOutOfRange c)

/-- `MemWrite(c, 1, v)` (R50). -/
def memWrite (G : Nat) (m : Memory) (c : Nat) (v : Cell) : Except Fault Memory :=
  if c < G then .ok (m.write c v) else .error (.cellOutOfRange c)

/-- One MemWrite for each entry, in order. -/
def memWriteAll (G : Nat) (m : Memory) : List (Nat × Cell) → Except Fault Memory
  | [] => .ok m
  | (c, v) :: rest =>
    match memWrite G m c v with
    | .ok m' => memWriteAll G m' rest
    | .error f => .error f

/-- One MemRead for each cell index, in order. -/
def memReadAll (G : Nat) (m : Memory) : List Nat → Except Fault (List Cell)
  | [] => .ok []
  | c :: rest =>
    match memRead G m c, memReadAll G m rest with
    | .ok v, .ok vs => .ok (v :: vs)
    | .error f, _ => .error f
    | _, .error f => .error f

/-- The state with the block's own state replaced. -/
def State.setDev (s : State) (d : Device s.cfg.W) : State := { s with dev := d }

/-- The state with one more response given. -/
def State.respond (s : State) (r : Response) : State := { s with responses := s.responses ++ [r] }

/-- A Device command completes: status 0, with data for RECONSTRUCT only (R34). -/
def State.succeed (s : State) (data : Option Data) : State := s.respond (.device .success data)

/-- The one error that sets the fault bit (R23, R245). -/
def Status.setsFault : Status → Bool
  | .sequenceError => true
  | .success | .shapeError | .unsupportedOperationError | .encodingError => false

/-- `raise E()` (R241): the command returns its status and no data and changes no state, except that
SequenceError also sets the sticky fault bit. -/
def State.raise (s : State) (e : Status) : State :=
  (s.setDev { s.dev with fault := s.dev.fault || e.setsFault }).respond (.device e none)

end Sys2Proof.Machine
end

