-- ==== Sys2Proof/Machine/Operands.lean ====
section
/-!
DEFINITION. Operand forms: the encodings between integers and `W`-bit values (00_scope.md R10, R11),
elements of a row-major array (30_encoding.md R77), and the assembly and checking of LOAD's operand
records (44_device.md R191 to R196, 60_exceptions.md R242, R248).
-/

namespace Sys2Proof.Machine

/-- `enc_W(v) = v mod 2^W`, Euclidean (R11, 41_alu.md R125): for `v < 0` the two's-complement low
`W` bits (R137). -/
def enc (w : Nat) (v : Int) : Word w := BitVec.ofNat w (v % (2 ^ w : Nat)).toNat

/-- `dec(v)`: the unsigned number of a `W`-bit value (R10). -/
def dec {w : Nat} (v : Word w) : Nat := v.toNat

/-- `sint32(c)`: the signed reading of a global-memory cell (R10, D7). -/
def sint32 (c : Cell) : Int := if c.toNat < 2 ^ 31 then (c.toNat : Int) else (c.toNat : Int) - 2 ^ 32

/-- Element `(r, c)` of a row-major array of `cols` columns (R77). -/
def element {w : Nat} (cols : Nat) (data : List (Word w)) (r c : Nat) : Word w :=
  data.getD (r * cols + c) 0

/-- Every integer of an operand record, stored as `enc_W` (R191). -/
def encodeAll (w : Nat) (data : List Int) : List (Word w) := data.map (enc w)

/-- LOAD DOT, operands of `na` and `nb` elements: equal lengths (R193), not empty (R195). -/
def loadVectors (w na nb : Nat) (da db : List Int) : Except Status (OperandStore w) :=
  if na ≠ nb then .error .shapeError
  else if na = 0 then .error .shapeError
  else .ok (.vectors (encodeAll w da) (encodeAll w db))

/-- LOAD DOT (R193): two 1-D operands, or two 2-D operands flattened row-major; one of each is a
ShapeError (D10). -/
def loadDot (w : Nat) : Operand → Operand → Except Status (OperandStore w)
  | .vec na da, .vec nb db => loadVectors w na nb da db
  | .mat ra ca da, .mat rb cb db => loadVectors w (ra * ca) (rb * cb) da db
  | .vec _ _, .mat _ _ _ => .error .shapeError
  | .mat _ _ _, .vec _ _ => .error .shapeError

/-- LOAD MATMUL (R194 to R196): two 2-D operands with agreeing inner dimensions, no dimension 0, an
output that fits global memory; the checks in the order of R248. -/
def loadMatmul (w G : Nat) : Operand → Operand → Except Status (OperandStore w)
  | .mat m k da, .mat k' n db =>
    if k ≠ k' then .error .shapeError
    else if m = 0 ∨ k = 0 ∨ n = 0 then .error .shapeError
    else if G < m * n then .error .shapeError
    else .ok (.matrices m k n (encodeAll w da) (encodeAll w db))
  | .vec _ _, _ => .error .shapeError
  | .mat _ _ _, .vec _ _ => .error .shapeError

/-- What LOAD stores, or the error it raises: the name is checked before any shape (R192, R248). -/
def loadOperands (w G : Nat) (opA opB : Operand) :
    OpName → Except Status (Operation × OperandStore w)
  | .other _ => .error .unsupportedOperationError
  | .dot => (loadDot w opA opB).map fun st => (.dot, st)
  | .matmul => (loadMatmul w G opA opB).map fun st => (.matmul, st)

end Sys2Proof.Machine
end

