-- ==== Sys2Proof/Machine/Partition.lean ====
section
/-!
DEFINITION. What PARTITION computes from the operand store (44_device.md R199 to R204).
-/

namespace Sys2Proof.Machine

/-- DOT pair stream (R199). -/
def dotPairs {w : Nat} (a b : List (Word w)) : List (OperandPair w) := List.zipWith OperandPair.mk a b

/-- DOT task map: the flattened index (R201). -/
def dotTasks (N : Nat) : List TaskCoord := (List.range N).map .flat

/-- DOT chunk of SM `s`: near-equal, the first `N mod S` chunks one longer (R200). -/
def dotChunk (N S s : Nat) : Chunk where
  start := s * (N / S) + min s (N % S)
  len := N / S + if s < N % S then 1 else 0

/-- DOT split (R200). -/
def dotSplit (N S : Nat) : List Chunk := (List.range S).map (dotChunk N S)

/-- MATMUL coordinate of canonical index `p`: output cells row-major outside, reduction inside
(R202). -/
def matmulTask (k n p : Nat) : TaskCoord := .cell (p / k / n) (p / k % n) (p % k)

/-- MATMUL task map of `T = m·n·k` entries (R202). -/
def matmulTasks (m k n : Nat) : List TaskCoord := (List.range (m * n * k)).map (matmulTask k n)

/-- MATMUL pair at a coordinate: `(A[i][kIdx], B[kIdx][j])` (R203); a flattened index has none. -/
def matmulPair {w : Nat} (k n : Nat) (a b : List (Word w)) : TaskCoord → OperandPair w
  | .cell i j kIdx => ⟨element k a i kIdx, element n b kIdx j⟩
  | .flat _ => paddingPair w

/-- MATMUL pair stream, in canonical order (R203). -/
def matmulPairs {w : Nat} (m k n : Nat) (a b : List (Word w)) : List (OperandPair w) :=
  (matmulTasks m k n).map (matmulPair k n a b)

/-- `ceil(a / b)` (00_scope.md R11). -/
def ceilDiv (a b : Nat) : Nat := (a + (b - 1)) / b

/-- MATMUL chunk of SM `s`: `P = ceil(T / S)` pairs each until they run out (R204). -/
def matmulChunk (T S s : Nat) : Chunk where
  start := min (s * ceilDiv T S) T
  len := min ((s + 1) * ceilDiv T S) T - min (s * ceilDiv T S) T

/-- MATMUL split (R204). -/
def matmulSplit (T S : Nat) : List Chunk := (List.range S).map (matmulChunk T S)

/-- The partition state that a device's operands and the number of SMs determine (R205): pair
stream, task map and chunk table. -/
def partitionOf {w : Nat} (S : Nat) :
    Operation → OperandStore w → Except Fault (List (OperandPair w) × List TaskCoord × List Chunk)
  | .dot, .vectors a b => .ok (dotPairs a b, dotTasks a.length, dotSplit a.length S)
  | .matmul, .matrices m k n a b =>
    .ok (matmulPairs m k n a b, matmulTasks m k n, matmulSplit (m * n * k) S)
  | .dot, .empty | .dot, .matrices _ _ _ _ _ | .matmul, .empty | .matmul, .vectors _ _ =>
    .error .operandsMissing

end Sys2Proof.Machine
end

