-- ==== Sys2Proof/Decode.lean ====
section
/-!
DEFINITION. The ControlDecoder (41_alu.md R120 to R122), the reading of a written code
(30_encoding.md R71, R73), and the encoder (R72).
-/

namespace Sys2Proof

/-- The decoder's lookup table, in code order (R120). -/
def opcodeTable : List Instr := [.add, .sub, .and, .or, .xor, .mul, .div, .nop]

/-- `decode(code[2:0])`: the table's entry at the code's number (R120). -/
def decodeBits (code : Code) : Decoded :=
  match opcodeTable[code.toNat]? with
  | some i => .op i
  | none => .invalid

/-- One binary digit of a written code. -/
def readDigit (d : Char) : Option Nat :=
  if d = '0' then some 0 else if d = '1' then some 1 else none

/-- A string `d2 d1 d0` is a binary numeral, most significant digit first (R71, D5); a string of
another length, or with another character, is malformed (R73). -/
def readText : List Char → Option Code
  | [d2, d1, d0] =>
    match readDigit d2, readDigit d1, readDigit d0 with
    | some a, some b, some c => some (BitVec.ofNat 3 (4 * a + 2 * b + c))
    | _, _, _ => none
  | _ => none

/-- The 3-bit code that a presented form stands for, if it is in the 3-bit domain (R73). -/
def CodeForm.read : CodeForm → Option Code
  | .bits code => some code
  | .number n => if 0 ≤ n ∧ n < 8 then some (BitVec.ofNat 3 n.toNat) else none
  | .text chars => readText chars

/-- The decoder on any presented form: total, INVALID outside the 3-bit domain (R121, R73). -/
def decode (form : CodeForm) : Decoded :=
  match form.read with
  | some code => decodeBits code
  | none => .invalid

/-- The code of an instruction (R72). -/
def encode : Instr → Code
  | .add => 0b000#3
  | .sub => 0b001#3
  | .and => 0b010#3
  | .or  => 0b011#3
  | .xor => 0b100#3
  | .mul => 0b101#3
  | .div => 0b110#3
  | .nop => 0b111#3

/-- `ALU <MNEMONIC> a, b` of the spec's program notation (R82): a direct ALU use whose encoding is
the instruction's 3-bit code. -/
def assembleAlu (i : Instr) (a b : Int) : Command := .alu a b (.bits (encode i))

/-- What the decoder reads from the low `nbits` bits of `w`, taken as a number: a number outside
`[0, 8)` is INVALID and so no instruction (R73). -/
def decodeTableWord (nbits w : Nat) : Option Instr :=
  match decode (.number (Int.ofNat (w % 2 ^ nbits))) with
  | .op i => some i
  | .invalid => none

end Sys2Proof
end

