-- ==== Sys2Proof/Machine/Adder.lean ====
section
/-!
DEFINITION. The carry-propagate adder chain (40_adder_chain.md R100 to R107): a combinational
function with no state.
-/

namespace Sys2Proof.Machine

/-- HalfAdder: `(sum, carry)` of two bits (R100). -/
def halfAdder (a b : Bool) : Bool × Bool := (a ^^ b, a && b)

/-- One adder stage: two chained half-adders, their carries ORed; `(sum, cout)` (R101, D26). -/
def stage (a b cin : Bool) : Bool × Bool :=
  let h1 := halfAdder a b
  let h2 := halfAdder h1.1 cin
  (h2.1, h1.2 || h2.2)

/-- The chain of stages over two bit sequences, least significant bit first, the carry-out of each
stage feeding the next (R102): `(sum bits, carry-out)`. -/
def rippleChain : List Bool → List Bool → Bool → List Bool × Bool
  | a :: as, b :: bs, cin =>
    let st := stage a b cin
    let rest := rippleChain as bs st.2
    (st.1 :: rest.1, rest.2)
  | _, _, cin => ([], cin)

/-- The bits of a value, bit 0 first (00_scope.md R9). -/
def bitsOf {w : Nat} (v : Word w) : List Bool := (List.range w).map v.getLsbD

/-- The number whose bits are listed, bit 0 first (R9). -/
def numberOf : List Bool → Nat
  | [] => 0
  | b :: bs => b.toNat + 2 * numberOf bs

/-- RippleAdder: `add(A, B) → (sum, carryOut)`, carry-in 0 at stage 0 (R102). -/
def rippleAdd {w : Nat} (A B : Word w) : Word w × Bool :=
  let r := rippleChain (bitsOf A) (bitsOf B) false
  (BitVec.ofNat w (numberOf r.1), r.2)

end Sys2Proof.Machine
end

