-- ==== Sys2Proof/Machine/Flags.lean ====
section
/-!
DEFINITION. Flags: the block has none (10_state.md R31). The one carry any component computes, the
ripple adder's `carryOut`, is discarded by the ALU (40_adder_chain.md R106); this is the one place
that does so.
-/

namespace Sys2Proof.Machine

/-- The sum of an adder output; the carry-out goes nowhere (R106). -/
def discardCarry {w : Nat} (r : Word w × Bool) : Word w := r.1

/-- Two's-complement negation for SUB: invert the bits, ripple-add 1, discard the carry (R105). -/
def twos {w : Nat} (B : Word w) : Word w := discardCarry (rippleAdd (~~~B) (BitVec.ofNat w 1))

end Sys2Proof.Machine
end

