-- ==== Sys2Proof/Machine/Alu.lean ====
section
/-!
DEFINITION. The ALU (41_alu.md R123 to R137): one function per operation, the selection by the
decoded code, and the integer-facing form. No state, no flag, no error (R135).
-/

namespace Sys2Proof.Machine

/-- ADD (R126): ripple-add, carry discarded. -/
def aluAdd {w : Nat} (A B : Word w) : Word w := discardCarry (rippleAdd A B)

/-- SUB (R127): ripple-add the two's complement of `B` to `A`. -/
def aluSub {w : Nat} (A B : Word w) : Word w := discardCarry (rippleAdd A (twos B))

/-- AND (R128), bit by bit. -/
def aluAnd {w : Nat} (A B : Word w) : Word w := A &&& B

/-- OR (R129), bit by bit. -/
def aluOr {w : Nat} (A B : Word w) : Word w := A ||| B

/-- XOR (R130), bit by bit. -/
def aluXor {w : Nat} (A B : Word w) : Word w := A ^^^ B

/-- MUL (R131): the exact product, re-encoded to `W` bits. -/
def aluMul {w : Nat} (A B : Word w) : Word w := enc w (dec A * dec B : Nat)

/-- DIV (R132): 0 if the divisor is 0, else the floor quotient. -/
def aluDiv {w : Nat} (A B : Word w) : Word w :=
  if dec B = 0 then 0 else enc w (dec A / dec B : Nat)

/-- NOP (R133): all-zero bits whatever the operands. -/
def aluNop {w : Nat} (_ _ : Word w) : Word w := 0

/-- INVALID (R134): all-zero bits, no error. -/
def aluInvalid {w : Nat} (_ _ : Word w) : Word w := 0

/-- The operation of a decoded code (R123). -/
def aluOp {w : Nat} : Decoded → Word w → Word w → Word w
  | .op .add => aluAdd
  | .op .sub => aluSub
  | .op .and => aluAnd
  | .op .or => aluOr
  | .op .xor => aluXor
  | .op .mul => aluMul
  | .op .div => aluDiv
  | .op .nop => aluNop
  | .invalid => aluInvalid

/-- `alu(A, B, code)` (R123). -/
def alu {w : Nat} (A B : Word w) (code : Code) : Word w := aluOp (decodeBits code) A B

/-- `aluExec(A, B, code)` (R124) for an operation on `W`-bit values: encode, operate, decode back. -/
def aluExec (w : Nat) (op : Word w → Word w → Word w) (a b : Int) : Int :=
  (dec (op (enc w a) (enc w b)) : Nat)

end Sys2Proof.Machine
end

