-- ==== Sys2Proof/Machine/Lanes.lean ====
section
/-!
DEFINITION. Lanes and warps (42_lane_warp.md R150 to R157): one broadcast opcode, every lane active,
operands routed by position.
-/

namespace Sys2Proof.Machine

/-- A lane takes an operand pair (R152). -/
def Lane.load {w : Nat} (ln : Lane w) (p : OperandPair w) : Lane w := { ln with A := p.A, B := p.B }

/-- A lane runs its ALU on its own pair and keeps the result in its slot (R153). -/
def Lane.run {w : Nat} (code : Code) (ln : Lane w) : Lane w := { ln with R := alu ln.A ln.B code }

/-- Warp.loadWork (R152): pair `l` goes to lane `l`. The caller passes one pair per lane. -/
def Warp.loadWork {w : Nat} (wp : Warp w) (q : List (OperandPair w)) : Warp w :=
  { lanes := List.zipWith Lane.load wp.lanes q }

/-- Warp.run (R153): every lane against the same code. -/
def Warp.run {w : Nat} (code : Code) (wp : Warp w) : Warp w := { lanes := wp.lanes.map (Lane.run code) }

/-- Warp.gatherResults (R155): the result slots in lane order. -/
def Warp.gatherResults {w : Nat} (wp : Warp w) : List (Word w) := wp.lanes.map Lane.R

/-- Lane `l` alone acts. -/
def Warp.runLane {w : Nat} (code : Code) (wp : Warp w) (l : Nat) : Warp w :=
  { lanes := wp.lanes.modify l (Lane.run code) }

/-- The lanes act one after another in the order given (R154: the order is not observable). -/
def Warp.runInOrder {w : Nat} (code : Code) (order : List Nat) (wp : Warp w) : Warp w :=
  order.foldl (Warp.runLane code) wp

end Sys2Proof.Machine
end

