-- ==== Sys2Proof/Machine/Sm.lean ====
section
/-!
DEFINITION. The streaming multiprocessor (43_sm.md R170 to R176): fit a chunk to `CAP` lanes, route
it, run one opcode, gather through local memory.
-/

namespace Sys2Proof.Machine

/-- SM.distribute, fitting step (R171): trailing pairs beyond `cap` are dropped silently, a short
chunk is padded on the right with `(0,0)`. -/
def fit {w : Nat} (cap : Nat) (chunk : List (OperandPair w)) : List (OperandPair w) :=
  if cap < chunk.length then chunk.take cap
  else chunk ++ List.replicate (cap - chunk.length) (paddingPair w)

/-- `n` contiguous groups of `size` (R172). -/
def groups {α : Type} (size : Nat) : Nat → List α → List (List α)
  | 0, _ => []
  | n + 1, f => f.take size :: groups size n (f.drop size)

/-- SM.distribute, routing step (R172): one group of `L` pairs to each warp, in order. -/
def SM.distribute {w : Nat} (c : Config) (chunk : List (OperandPair w)) (sm : SM w) : SM w :=
  { sm with warps := List.zipWith Warp.loadWork sm.warps (groups c.L c.WP (fit c.CAP chunk)) }

/-- SM.run (R173): every warp, the same code. -/
def SM.run {w : Nat} (code : Code) (sm : SM w) : SM w := { sm with warps := sm.warps.map (Warp.run code) }

/-- `LMWrite(s, w, l, r[l])` for every `l`: a warp's results into its own row (R174, 20_memory.md
R55). -/
def writeRow {w : Nat} (row results : List (Word w)) : List (Word w) :=
  List.zipWith (fun _ v => v) row results

/-- SM.gatherResults, the writing half (R174): warp order then lane order, into local memory. -/
def SM.gather {w : Nat} (sm : SM w) : SM w :=
  { sm with localMem := List.zipWith writeRow sm.localMem (sm.warps.map Warp.gatherResults) }

/-- SM.gatherResults, the reading half (R174): local memory flattened row-major. -/
def SM.flat {w : Nat} (sm : SM w) : List (Word w) := sm.localMem.flatten

/-- One SM's whole round in an EXECUTE: distribute, run, gather (44_device.md R207). Its result
sequence is `SM.flat` of the SM it leaves. -/
def SM.round {w : Nat} (c : Config) (code : Code) (chunk : List (OperandPair w)) (sm : SM w) : SM w :=
  ((sm.distribute c chunk).run code).gather

/-- The output of an SM as one function of its chunk and the code (R176). -/
def smCompute {w : Nat} (c : Config) (chunk : List (OperandPair w)) (code : Code) : List (Word w) :=
  (fit c.CAP chunk).map fun p => alu p.A p.B code

/-- Warp `k` alone runs and gathers into its own row. -/
def SM.runWarp {w : Nat} (code : Code) (sm : SM w) (k : Nat) : SM w :=
  let wp := Warp.run code (sm.warps.getD k ⟨[]⟩)
  { warps := sm.warps.modify k (Warp.run code)
    localMem := sm.localMem.modify k fun row => writeRow row wp.gatherResults }

/-- The warps run and gather one after another in the order given (R175: it is not observable). -/
def SM.runInOrder {w : Nat} (code : Code) (order : List Nat) (sm : SM w) : SM w :=
  order.foldl (SM.runWarp code) sm

end Sys2Proof.Machine
end

