-- ==== Sys2Proof/Machine/Device.lean ====
section
/-!
DEFINITION. The four Device commands (44_device.md R190 to R221), each one atomic transition
(00_scope.md R14). Each checks the phase first (R190), then raises or takes effect whole (R241).
-/

namespace Sys2Proof.Machine

/-- PARTITION and RECONSTRUCT are allowed in every phase but EMPTY (R190, R198, R214). -/
def Phase.hasWorkload : Phase → Bool
  | .empty => false
  | .loaded | .partitioned | .executed => true

/-- EXECUTE is allowed once the current workload is partitioned (R190, R206). LOAD always is. -/
def Phase.hasPartition : Phase → Bool
  | .empty | .loaded => false
  | .partitioned | .executed => true

/-- The effect of a computation that may meet a fault. -/
def answerWith {α : Type} (r : Except Fault α) (k : α → State) : Answer :=
  match r with
  | .ok x => .next (k x)
  | .error f => .fault f

/-- LOAD's effect on success (R197): the operands and shape are replaced, the partition state
cleared. Global memory, lanes, local memory and the fault bit stay. -/
def Device.loadWorkload {w : Nat} (S : Nat) (op : Operation) (st : OperandStore w) (d : Device w) :
    Device w :=
  { d with
    operation := op
    store := st
    pairs := []
    taskMap := []
    chunks := emptyChunks S
    phase := .loaded }

/-- `LOAD(opA, opB, name)` (R191 to R197). -/
def deviceLoad (opA opB : Operand) (name : OpName) (s : State) : Answer :=
  match loadOperands s.cfg.W s.cfg.G opA opB name with
  | .ok (op, st) => .next ((s.setDev (s.dev.loadWorkload s.cfg.S op st)).succeed none)
  | .error e => .next (s.raise e)

/-- PARTITION's effect on success (R205). -/
def Device.partition {w : Nat} (S : Nat) (d : Device w) : Except Fault (Device w) :=
  (partitionOf S d.operation d.store).map fun r =>
    { d with pairs := r.1, taskMap := r.2.1, chunks := r.2.2, phase := .partitioned }

/-- `PARTITION()` (R198 to R205). -/
def devicePartition (s : State) : Answer :=
  if s.dev.phase.hasWorkload then
    answerWith (s.dev.partition s.cfg.S) fun d => (s.setDev d).succeed none
  else .next (s.raise .sequenceError)

/-- The pairs of a chunk (10_state.md R26). -/
def chunkPairs {w : Nat} (pairs : List (OperandPair w)) (ch : Chunk) : List (OperandPair w) :=
  (pairs.drop ch.start).take ch.len

/-- EXECUTE, dispatch (R207): every SM's round on its own chunk. -/
def Device.dispatch {w : Nat} (c : Config) (code : Code) (d : Device w) : List (SM w) :=
  List.zipWith (fun ch sm => sm.round c code (chunkPairs d.pairs ch)) d.chunks d.sms

/-- SM `k` alone does its round. -/
def Device.runSm {w : Nat} (c : Config) (code : Code) (d : Device w) (k : Nat) : Device w :=
  { d with sms := d.sms.modify k fun sm =>
      sm.round c code (chunkPairs d.pairs (d.chunks.getD k ⟨0, 0⟩)) }

/-- The SMs do their rounds one after another in the order given (R207: it is not observable). -/
def Device.runInOrder {w : Nat} (c : Config) (code : Code) (order : List Nat) (d : Device w) : Device w :=
  order.foldl (Device.runSm c code) d

/-- EXECUTE, result stream (R208): every SM's flat result sequence, in SM order. -/
def resultStream {w : Nat} (sms : List (SM w)) : List (Word w) := (sms.map SM.flat).flatten

/-- EXECUTE DOT, accumulation (R209): the sum of the result stream modulo 2^32. -/
def dotSum {w : Nat} (rs : List (Word w)) : Cell := BitVec.ofNat 32 (rs.map dec).sum

/-- The SM whose chunk holds canonical index `p` (R210). -/
def smOf (chunks : List Chunk) (p : Nat) : Option Nat :=
  chunks.findIdx? fun ch => decide (ch.start ≤ p) && decide (p < ch.start + ch.len)

/-- The result of canonical index `p`, if `p` is real (R210): an index at or beyond `CAP` in its
chunk was dropped by its SM and has none (90_conflicts.md C5). -/
def realResult {w : Nat} (cap : Nat) (chunks : List Chunk) (rs : List (Word w)) (p : Nat) :
    Option (Word w) :=
  match smOf chunks p with
  | some s =>
    let u := p - (chunks.getD s ⟨0, 0⟩).start
    if u < cap then rs[s * cap + u]? else none
  | none => none

/-- One step of EXECUTE MATMUL's accumulation (R211): canonical index `p` of coordinate `task` adds
its result, if it has one, to the accumulator of its output cell, modulo 2^32. -/
def accumulate {w : Nat} (cap n : Nat) (chunks : List Chunk) (rs : List (Word w)) (acc : List Cell)
    (entry : TaskCoord × Nat) : List Cell :=
  match entry.1, realResult cap chunks rs entry.2 with
  | .cell i j _, some r => acc.modify (i * n + j) (· + BitVec.ofNat 32 (dec r))
  | _, _ => acc

/-- EXECUTE MATMUL, accumulation (R211): the `m × n` accumulators, row-major, over the canonical task
map. -/
def matmulSums {w : Nat} (cap m n : Nat) (tasks : List TaskCoord) (chunks : List Chunk)
    (rs : List (Word w)) : List Cell :=
  tasks.zipIdx.foldl (accumulate cap n chunks rs) (List.replicate (m * n) 0)

/-- The cell writes of EXECUTE MATMUL (R212): output `(i, j)` to cell `i·n + j`, every one of
them. -/
def matmulWrites (m n : Nat) (acc : List Cell) : List (Nat × Cell) :=
  (List.range m).flatMap fun i => (List.range n).map fun j => (i * n + j, acc.getD (i * n + j) 0)

/-- EXECUTE, the new contents of global memory (R209, R212). -/
def Device.accumulateInto {w : Nat} (c : Config) (d : Device w) (rs : List (Word w)) :
    Except Fault Memory :=
  match d.operation, d.store with
  | .dot, _ => memWrite c.G d.gmem 0 (dotSum rs)
  | .matmul, .matrices m _ n _ _ =>
    memWriteAll c.G d.gmem (matmulWrites m n (matmulSums c.CAP m n d.taskMap d.chunks rs))
  | .matmul, .empty | .matmul, .vectors _ _ => .error .operandsMissing

/-- EXECUTE's effect on success (R213, R221). -/
def Device.execute {w : Nat} (c : Config) (code : Code) (d : Device w) : Except Fault (Device w) :=
  let sms := d.dispatch c code
  (d.accumulateInto c (resultStream sms)).map fun m =>
    { d with sms := sms, gmem := m, phase := .executed }

/-- `EXECUTE(code)` (R206 to R213, R221): sequence before opcode (60_exceptions.md R248), and only MUL
is accepted (30_encoding.md R75). -/
def deviceExecute (code : Code) (s : State) : Answer :=
  if s.dev.phase.hasPartition then
    if code = encode .mul then
      answerWith (s.dev.execute s.cfg code) fun d => (s.setDev d).succeed none
    else .next (s.raise .unsupportedOperationError)
  else .next (s.raise .sequenceError)

/-- The cells that RECONSTRUCT reads for row `i` of an `m × n` output (R216). -/
def rowCells (n i : Nat) : List Nat := (List.range n).map fun j => i * n + j

/-- RECONSTRUCT MATMUL, rows `i` of those listed (R216). -/
def readRows (G : Nat) (m : Memory) (n : Nat) : List Nat → Except Fault (List (List Int))
  | [] => .ok []
  | i :: rest =>
    match memReadAll G m (rowCells n i), readRows G m n rest with
    | .ok row, .ok rows => .ok (row.map sint32 :: rows)
    | .error f, _ => .error f
    | _, .error f => .error f

/-- RECONSTRUCT's data (R215, R216), the cells as they stand (R217). -/
def Device.output {w : Nat} (G : Nat) (d : Device w) : Except Fault Data :=
  match d.operation, d.store with
  | .dot, _ => (memRead G d.gmem 0).map fun v => .scalar (sint32 v)
  | .matmul, .matrices m _ n _ _ => (readRows G d.gmem n (List.range m)).map .array
  | .matmul, .empty | .matmul, .vectors _ _ => .error .operandsMissing

/-- `RECONSTRUCT()` (R214 to R218): it writes no state. -/
def deviceReconstruct (s : State) : Answer :=
  if s.dev.phase.hasWorkload then
    answerWith (s.dev.output s.cfg.G) fun data => s.succeed (some data)
  else .next (s.raise .sequenceError)

/-- An opcode as the port in progress presents it: at a direct ALU port, the operation on the two
integer operands, answered with the integer result (41_alu.md R124); at the Device, the EXECUTE of
that code (30_encoding.md R75). -/
def presentOpcode (code : Code) (op : {w : Nat} → Word w → Word w → Word w) (s : State) : Answer :=
  match s.port with
  | .direct a b => .next (s.respond (.alu (aluExec s.cfg.W op a b)))
  | .device => deviceExecute code s

end Sys2Proof.Machine
end

