-- ==== Sys2Proof/Machine/Arithmetic.lean ====
section
/-!
DEFINITION. The meanings of ADD, SUB, MUL and DIV (41_alu.md R126, R127, R131, R132), at both ports
an opcode is presented at.
-/

namespace Sys2Proof.Machine

/-- ADD, code `000` (R126). -/
def execAdd (s : State) : Answer := presentOpcode (encode .add) aluAdd s

/-- SUB, code `001` (R127). -/
def execSub (s : State) : Answer := presentOpcode (encode .sub) aluSub s

/-- MUL, code `101` (R131): the only code the Device's EXECUTE accepts (30_encoding.md R75). -/
def execMul (s : State) : Answer := presentOpcode (encode .mul) aluMul s

/-- DIV, code `110` (R132). -/
def execDiv (s : State) : Answer := presentOpcode (encode .div) aluDiv s

end Sys2Proof.Machine
end

