-- ==== Sys2Proof/Machine/Logic.lean ====
section
/-!
DEFINITION. The meanings of AND, OR, XOR and NOP (41_alu.md R128 to R130, R133), at both ports an
opcode is presented at, and of an INVALID code at a direct port (R134).
-/

namespace Sys2Proof.Machine

/-- AND, code `010` (R128). -/
def execAnd (s : State) : Answer := presentOpcode (encode .and) aluAnd s

/-- OR, code `011` (R129). -/
def execOr (s : State) : Answer := presentOpcode (encode .or) aluOr s

/-- XOR, code `100` (R130). -/
def execXor (s : State) : Answer := presentOpcode (encode .xor) aluXor s

/-- NOP, code `111` (R133): it writes a zero result. -/
def execNop (s : State) : Answer := presentOpcode (encode .nop) aluNop s

/-- INVALID (R134): no instruction of the table; a malformed code at a direct ALU use of operands
`a`, `b` gives the all-zero result and no error. -/
def execInvalid (a b : Int) (s : State) : Answer := .next (s.respond (.alu (aluExec s.cfg.W aluInvalid a b)))

end Sys2Proof.Machine
end

