-- ==== Sys2Proof/Machine/Issue.lean ====
section
/-!
DEFINITION. Taking the host's next request (30_encoding.md R76, R82; 70_reset_and_hazards.md R274) and
carrying it out as one atomic transition. Nothing is fetched: the opcode arrives in the request
(10_state.md R21, 20_memory.md R64).
-/

namespace Sys2Proof.Machine

/-- A direct ALU use of operands `a`, `b` (41_alu.md R124): the decoded instruction, or INVALID. -/
def runAlu (a b : Int) (code : Decoded) (s : State) : Answer :=
  match code with
  | .op i => exec i { s with port := .direct a b }
  | .invalid => execInvalid a b { s with port := .direct a b }

/-- EXECUTE (44_device.md R206): its code is a 3-bit field, so it decodes to an instruction (R121); the
last case is never met. -/
def runExecute (code : Code) (s : State) : Answer :=
  match decodeBits code with
  | .op i => exec i { s with port := .device }
  | .invalid => deviceExecute code { s with port := .device }

/-- One request (R76, R82). -/
def runCommand (cmd : Command) (s : State) : Answer :=
  match cmd with
  | .load opA opB name => deviceLoad opA opB name s
  | .partition => devicePartition s
  | .execute code => runExecute code s
  | .reconstruct => deviceReconstruct s
  | .alu a b code => runAlu a b (decode code) s

/-- The next request of the run, or nothing: with none pending the block is idle and keeps all
state (60_exceptions.md R258). -/
def takeRequest (s : State) : Answer :=
  match s.pending with
  | [] => .next s
  | req :: rest => runCommand req.val { s with pending := rest }

/-- The request that presents the code numbered `w` at port `p` again. -/
def Port.present (p : Port) (w : Nat) : Request :=
  match p with
  | .direct a b => ⟨.alu a b (.number (Int.ofNat w)), rfl⟩
  | .device => ⟨.execute (BitVec.ofNat 3 w), rfl⟩

/-- The state with a request put before those pending. -/
def State.request (s : State) (req : Request) : State := { s with pending := req :: s.pending }

end Sys2Proof.Machine
end

