-- ==== Sys2Proof/Machine/Step.lean ====
section
/-!
DEFINITION. One step of the machine: the next request, as one atomic transition.
-/

namespace Sys2Proof.Machine

/-- One step: the oldest pending request is taken and carried out (70_reset_and_hazards.md R274). -/
def step (s : State) : Host.Outcome State Fault Refusal := takeRequest s

/-- The state whose very next step runs the opcode in the low `nbits` bits of `w`: a request that
presents it at the port in place, put before those pending. Nothing else changes. Log entry 6. -/
def State.withFetchWord (s : State) (nbits w : Nat) : State := s.request (s.port.present (w % 2 ^ nbits))

end Sys2Proof.Machine
end

