-- ==== Sys2Proof/Safety.lean ====
section
/-!
DEFINITION. The terms claims are stated in: the launch premises the spec names (70_reset_and_hazards.md
R272) and the invariant of the block's state.
-/

namespace Sys2Proof.Machine

/-- `cleanReset`: the state of 10_state.md R36 that the spec fixes (R272). -/
def Device.cleanReset {w : Nat} (S : Nat) (d : Device w) : Prop :=
  d.phase = .empty ∧ d.fault = false ∧ d.store = .empty ∧ d.pairs = [] ∧ d.taskMap = [] ∧
    d.chunks = emptyChunks S ∧ d.gmem = []

/-- `noFault`: the fault bit is clear (R272). `validConfig` is the type `Config`. -/
def State.noFault (s : State) : Prop := s.dev.fault = false

/-- `n` requests taken from `s` end in `t`, and the run is not faulted: the fault bit, which no command
clears, is clear at its end (R272). A run with the bit set is faulted, and a claim about a run says nothing
of it (60_exceptions.md R259, R282). -/
def State.runsTo (s : State) (n : Nat) (t : State) : Prop :=
  Host.Core.run Sys2Proof.core n s = .next t ∧ t.noFault

/-- `fitsCapacity`: no SM drops a pair of a workload of `NP` pairs (70_reset_and_hazards.md R276). -/
def fitsCapacity (c : Config) (NP : Nat) : Prop := ceilDiv NP c.S ≤ c.CAP

/-- `fitsWidth` for one pair of host integers: both and their product are in `[0, 2^W)` (R277). -/
def fitsWidth (w : Nat) (x y : Int) : Prop :=
  0 ≤ x ∧ x < 2 ^ w ∧ 0 ≤ y ∧ y < 2 ^ w ∧ x * y < 2 ^ w

/-- `fitsCell`: an output is below `2^31` (R278). -/
def fitsCell (x : Int) : Prop := x < 2 ^ 31

/-- The memory invariant: canonical form, and only cells that exist (20_memory.md R50). -/
def Memory.Inv (G : Nat) (m : Memory) : Prop := m.wf ∧ ∀ e ∈ m, e.1 < G

/-- An SM has its `WP` warps of `L` lanes and its `WP × L` local memory (43_sm.md R170). -/
def SM.shaped {w : Nat} (c : Config) (sm : SM w) : Prop :=
  sm.warps.length = c.WP ∧ (∀ wp ∈ sm.warps, wp.lanes.length = c.L) ∧
    sm.localMem.length = c.WP ∧ ∀ row ∈ sm.localMem, row.length = c.L

/-- The arena has its `S` SMs, each with its shape (10_state.md R27, R29). -/
def shapedArena {w : Nat} (c : Config) (sms : List (SM w)) : Prop :=
  sms.length = c.S ∧ ∀ sm ∈ sms, sm.shaped c

/-- The operand store holds a workload of the selected operation, as LOAD admits it
(10_state.md R25; 44_device.md R193 to R196). -/
def holdsWorkload {w : Nat} (G : Nat) : Operation → OperandStore w → Prop
  | .dot, .vectors a b => a.length = b.length ∧ 0 < a.length
  | .matmul, .matrices m k n a b =>
    0 < m ∧ 0 < k ∧ 0 < n ∧ m * n ≤ G ∧ a.length = m * k ∧ b.length = k * n
  | .dot, .empty | .dot, .matrices _ _ _ _ _ | .matmul, .empty | .matmul, .vectors _ _ => False

/-- `opA` and `opB` are two 1-D or two 2-D operands with the flattened data `xs` and `ys` (44_device.md
R193). -/
def dotOperands (opA opB : Operand) (xs ys : List Int) : Prop :=
  (∃ na nb, opA = .vec na xs ∧ opB = .vec nb ys) ∨
    ∃ ra ca rb cb, opA = .mat ra ca xs ∧ opB = .mat rb cb ys

/-- `cell` is an output cell of the workload, one of those an EXECUTE writes: cell 0 for DOT, the cells
`[0, m·n)` for MATMUL (20_memory.md R51; 44_device.md R209, R212). -/
def Device.outputCell {w : Nat} (d : Device w) (cell : Nat) : Prop :=
  match d.operation, d.store with
  | .dot, _ => cell = 0
  | .matmul, .matrices m _ n _ _ => cell < m * n
  | .matmul, .empty | .matmul, .vectors _ _ => False

/-- The operand store goes with the phase (10_state.md R22, R25). -/
def Device.workloadInv {w : Nat} (c : Config) (d : Device w) : Prop :=
  match d.phase with
  | .empty => d.store = .empty
  | .loaded | .partitioned | .executed => holdsWorkload c.G d.operation d.store

/-- The partition state is empty until PARTITION, and then what the operands determine (10_state.md
R26; 44_device.md R197, R205). -/
def Device.partitionInv {w : Nat} (c : Config) (d : Device w) : Prop :=
  match d.phase with
  | .empty | .loaded => d.pairs = [] ∧ d.taskMap = [] ∧ d.chunks = emptyChunks c.S
  | .partitioned | .executed =>
    partitionOf c.S d.operation d.store = .ok (d.pairs, d.taskMap, d.chunks)

/-- The invariant of the block: every state that a run from reset reaches meets it. -/
def Device.Inv {w : Nat} (c : Config) (d : Device w) : Prop :=
  d.gmem.Inv c.G ∧ shapedArena c d.sms ∧ d.workloadInv c ∧ d.partitionInv c

/-- The command `cmd` is the next one the machine takes, and `rest` are pending after it. -/
def State.nextIs (s : State) (cmd : Command) (rest : List Request) : Prop :=
  ∃ h : cmd.wellFormed = true, s.pending = ⟨cmd, h⟩ :: rest

/-- The invariant of the machine. -/
def State.Inv (s : State) : Prop := s.dev.Inv s.cfg

end Sys2Proof.Machine
end

