-- ==== Sys2Proof/Certificates/Slice0/Obligations.lean ====
section
/-!
DEFINITION. The statements for the provers, from the numbered rules of spec/. Each docstring names the
rules it formalises, and says what rests on an inference that the spec marks as its own or on a log entry.
All quantify over every state, operand and configuration that their premises admit, reachable or not. In
every next state `pending`, `port` and `responses` are the model's own: log entries 6, 7, 8. A decision
`D<n>` is the spec's own choice, in 92_eei_decisions.md.
-/

open Sys2Proof Sys2Proof.Machine

/-! ### Decoding -/

/-- R72, R120, R71: the eight codes, written out from the table, at the 3-bit port and as numbers; the
decoder and the encoder undo each other; a written code `d2 d1 d0` is a binary numeral, most significant
digit first, which is the spec's own decision D5. -/
def Obligations.DecoderReadsTheEightSpecCodes : Prop :=
  (decode (.bits 0b000#3) = .op .add ∧ decode (.bits 0b001#3) = .op .sub ∧
    decode (.bits 0b010#3) = .op .and ∧ decode (.bits 0b011#3) = .op .or ∧
    decode (.bits 0b100#3) = .op .xor ∧ decode (.bits 0b101#3) = .op .mul ∧
    decode (.bits 0b110#3) = .op .div ∧ decode (.bits 0b111#3) = .op .nop) ∧
  (decode (.number 0) = .op .add ∧ decode (.number 1) = .op .sub ∧
    decode (.number 2) = .op .and ∧ decode (.number 3) = .op .or ∧
    decode (.number 4) = .op .xor ∧ decode (.number 5) = .op .mul ∧
    decode (.number 6) = .op .div ∧ decode (.number 7) = .op .nop) ∧
  (∀ (code : Code) (i : Instr), decode (.bits code) = .op i ↔ encode i = code) ∧
  ∀ d2 d1 d0 : Bool, ∃ code : Code,
    code.getLsbD 2 = d2 ∧ code.getLsbD 1 = d1 ∧ code.getLsbD 0 = d0 ∧
    decode (.text [if d2 then '1' else '0', if d1 then '1' else '0', if d0 then '1' else '0']) =
      decode (.bits code)

/-- R73: exactly the numbers outside `[0, 8)` and the strings that are not three binary digits decode
to INVALID, no 3-bit code does, and the ALU result of such an input is all-zero bits. How INVALID is
reached and what it gives is the spec's own decision D6, that no 3-bit code is INVALID its inference. -/
def Obligations.MalformedCodesAreInvalidAndGiveZero : Prop :=
  (∀ n : Int, decode (.number n) = .invalid ↔ ¬(0 ≤ n ∧ n < 8)) ∧
  (∀ chars : List Char,
    decode (.text chars) = .invalid ↔ ¬(chars.length = 3 ∧ ∀ d ∈ chars, d = '0' ∨ d = '1')) ∧
  (∀ code : Code, decode (.bits code) ≠ .invalid) ∧
  ∀ (s : State) (a b : Int) (form : CodeForm) (rest : List Request),
    s.nextIs (.alu a b form) rest → decode form = .invalid →
    step s =
      .next { s with pending := rest, port := .direct a b, responses := s.responses ++ [.alu 0] }

/-- A step runs the decoded instruction: the request is taken, the port it came to is latched, and the
rest is `exec` (30_encoding.md R75, R76, R82). `withFetchWord` presents an instruction so. The request
list and the port are the model's own: log entries 6, 7. -/
def Obligations.StepRunsTheDecodedInstruction : Prop :=
  (∀ (s : State) (a b : Int) (form : CodeForm) (rest : List Request) (i : Instr),
    s.nextIs (.alu a b form) rest → decode form = .op i →
    step s = exec i { s with pending := rest, port := .direct a b }) ∧
  (∀ (s : State) (code : Code) (rest : List Request) (i : Instr),
    s.nextIs (.execute code) rest → decodeBits code = .op i →
    step s = exec i { s with pending := rest, port := .device }) ∧
  ∀ (s : State) (nbits w : Nat) (i : Instr),
    decodeTableWord nbits w = some i → step (s.withFetchWord nbits w) = exec i s

/-! ### The adder chain -/

/-- R101 over R100: a stage is two chained half-adders with their carries ORed, which are never both 1
(so that OR and XOR agree), and it counts its three inputs. The equations are the spec's [from general
knowledge], the OR its decision D26. -/
def Obligations.AdderStageCountsItsInputs : Prop :=
  (∀ a b : Bool, halfAdder a b = (a ^^ b, a && b)) ∧
  ∀ a b cin : Bool,
    let h1 := halfAdder a b
    let h2 := halfAdder h1.1 cin
    stage a b cin = (h2.1, h1.2 || h2.2) ∧ (h1.2 && h2.2) = false ∧ (h1.2 || h2.2) = (h1.2 ^^ h2.2) ∧
    (stage a b cin).1.toNat + 2 * (stage a b cin).2.toNat = a.toNat + b.toNat + cin.toNat

/-- R103: the ripple adder adds modulo `2^W`, and its carry-out is the quotient. The carry-out is the
spec's own inference. -/
def Obligations.RippleAdderAddsModuloTwoToTheWidth : Prop :=
  ∀ (w : Nat) (A B : Word w),
    dec (rippleAdd A B).1 = (dec A + dec B) % 2 ^ w ∧
    (rippleAdd A B).2.toNat = (dec A + dec B) / 2 ^ w

/-- R105: two's complement is the inversion plus 1 through the ripple adder, and it negates modulo
`2^W`. The spec's own inference. -/
def Obligations.TwosComplementNegatesModuloTwoToTheWidth : Prop :=
  ∀ (w : Nat) (B : Word w),
    twos B = (rippleAdd (~~~B) (BitVec.ofNat w 1)).1 ∧ dec (twos B) = (2 ^ w - dec B) % 2 ^ w

/-! ### The ALU: what each instruction answers at a direct port. Each conclusion is an equation for the
whole next state, so it also says that nothing but the response list changes. The port takes any two
integers (R124): that it reduces an oversize or negative one, and a product, modulo `2^W`, is the spec's own
decision D2 (R125) and D3 (R137). -/

/-- R123: the operation is selected by the code alone; INVALID gives all-zero bits (R134). -/
def Obligations.AluSelectsTheOperationByItsCode : Prop :=
  ∀ (w : Nat) (A B : Word w),
    alu A B 0b000#3 = aluAdd A B ∧ alu A B 0b001#3 = aluSub A B ∧ alu A B 0b010#3 = aluAnd A B ∧
    alu A B 0b011#3 = aluOr A B ∧ alu A B 0b100#3 = aluXor A B ∧ alu A B 0b101#3 = aluMul A B ∧
    alu A B 0b110#3 = aluDiv A B ∧ alu A B 0b111#3 = aluNop A B ∧
    aluOp .invalid A B = aluInvalid A B ∧ aluInvalid A B = 0

/-- R126, for any integers (R124). The reduction of operands is the spec's own decision D2 (R125) and D3
(R137), the sum modulo `2^W` its inference from R103. -/
def Obligations.AddAnswersTheSumModuloTwoToTheWidth : Prop :=
  encode .add = 0b000#3 ∧ (∀ (w : Nat) (A B : Word w), aluAdd A B = (rippleAdd A B).1) ∧
  ∀ (s : State) (a b : Int), s.port = .direct a b →
    exec .add s = .next { s with responses := s.responses ++ [.alu ((a + b) % 2 ^ s.cfg.W)] }

/-- R127, for any integers (R124). The reduction of operands is the spec's own decision D2 (R125) and D3
(R137), the difference modulo `2^W` its inference from R103 and R105. -/
def Obligations.SubAnswersTheDifferenceModuloTwoToTheWidth : Prop :=
  encode .sub = 0b001#3 ∧ (∀ (w : Nat) (A B : Word w), aluSub A B = (rippleAdd A (twos B)).1) ∧
  ∀ (s : State) (a b : Int), s.port = .direct a b →
    exec .sub s = .next { s with responses := s.responses ++ [.alu ((a - b) % 2 ^ s.cfg.W)] }

/-- R128, bit by bit, for any integers (R124): the bits of an operand are those of its two's complement,
which is the spec's own decision D2 (R125) and D3 (R137). -/
def Obligations.AndAnswersTheBitwiseConjunction : Prop :=
  encode .and = 0b010#3 ∧
  (∀ (w : Nat) (A B : Word w) (i : Nat), (aluAnd A B).getLsbD i = (A.getLsbD i && B.getLsbD i)) ∧
  ∀ (s : State) (a b : Int), s.port = .direct a b → ∃ y : Nat,
    exec .and s = .next { s with responses := s.responses ++ [.alu y] } ∧ y < 2 ^ s.cfg.W ∧
    ∀ i < s.cfg.W, y.testBit i = (a.testBit i && b.testBit i)

/-- R129, bit by bit, for any integers (R124): the bits of an operand are those of its two's complement,
which is the spec's own decision D2 (R125) and D3 (R137). -/
def Obligations.OrAnswersTheBitwiseDisjunction : Prop :=
  encode .or = 0b011#3 ∧
  (∀ (w : Nat) (A B : Word w) (i : Nat), (aluOr A B).getLsbD i = (A.getLsbD i || B.getLsbD i)) ∧
  ∀ (s : State) (a b : Int), s.port = .direct a b → ∃ y : Nat,
    exec .or s = .next { s with responses := s.responses ++ [.alu y] } ∧ y < 2 ^ s.cfg.W ∧
    ∀ i < s.cfg.W, y.testBit i = (a.testBit i || b.testBit i)

/-- R130, bit by bit, for any integers (R124): the bits of an operand are those of its two's complement,
which is the spec's own decision D2 (R125) and D3 (R137). -/
def Obligations.XorAnswersTheBitwiseDifference : Prop :=
  encode .xor = 0b100#3 ∧
  (∀ (w : Nat) (A B : Word w) (i : Nat), (aluXor A B).getLsbD i = (A.getLsbD i ^^ B.getLsbD i)) ∧
  ∀ (s : State) (a b : Int), s.port = .direct a b → ∃ y : Nat,
    exec .xor s = .next { s with responses := s.responses ++ [.alu y] } ∧ y < 2 ^ s.cfg.W ∧
    ∀ i < s.cfg.W, y.testBit i = (a.testBit i ^^ b.testBit i)

/-- R131, at a direct port, for any integers (R124). The truncation of operands and product is the spec's
own decision D2 (R125), the reduction of negative operands D3 (R137). -/
def Obligations.MulAnswersTheProductModuloTwoToTheWidth : Prop :=
  encode .mul = 0b101#3 ∧ (∀ (w : Nat) (A B : Word w), dec (aluMul A B) = dec A * dec B % 2 ^ w) ∧
  ∀ (s : State) (a b : Int), s.port = .direct a b →
    exec .mul s = .next { s with responses := s.responses ++ [.alu (a * b % 2 ^ s.cfg.W)] }

/-- R132: a zero divisor gives 0 and no error; else the floor quotient of the unsigned operands. That any
integer is first reduced modulo `2^W` (R124) is the spec's own decision D2 (R125) and D3 (R137). -/
def Obligations.DivAnswersTheUnsignedQuotientOrZero : Prop :=
  encode .div = 0b110#3 ∧
  (∀ (w : Nat) (A B : Word w), dec (aluDiv A B) = if dec B = 0 then 0 else dec A / dec B) ∧
  ∀ (s : State) (a b : Int), s.port = .direct a b →
    exec .div s = .next { s with
      responses := s.responses ++
        [.alu (if b % 2 ^ s.cfg.W = 0 then 0 else (a % 2 ^ s.cfg.W) / (b % 2 ^ s.cfg.W))] }

/-- R133: a zero result, also in a lane's result slot, which it does not leave unchanged. -/
def Obligations.NopAnswersZero : Prop :=
  encode .nop = 0b111#3 ∧ (∀ (w : Nat) (A B : Word w), aluNop A B = 0) ∧
  (∀ (w : Nat) (ln : Lane w), ln.run 0b111#3 = { ln with R := 0 }) ∧
  ∀ (s : State) (a b : Int), s.port = .direct a b →
    exec .nop s = .next { s with responses := s.responses ++ [.alu 0] }

/-- R124: at a direct port every instruction answers one integer in `[0, 2^W)`, the same as for its
operands reduced modulo `2^W`, and changes nothing else. The spec's own inference. -/
def Obligations.EveryAluResultIsAnUnsignedWordOfTheReducedOperands : Prop :=
  ∀ (i : Instr) (s : State) (a b : Int), s.port = .direct a b → ∃ y : Int,
    exec i s = .next { s with responses := s.responses ++ [.alu y] } ∧ 0 ≤ y ∧ y < 2 ^ s.cfg.W ∧
    y = dec (alu (enc s.cfg.W a) (enc s.cfg.W b) (encode i)) ∧
    y = dec (alu (enc s.cfg.W (a % 2 ^ s.cfg.W)) (enc s.cfg.W (b % 2 ^ s.cfg.W)) (encode i))

/-! ### Lanes, warps and SMs -/

/-- R171: fitting keeps the first `CAP` pairs and pads a short chunk with `(0,0)` on the right, and a
padding pair gives 0 under every opcode. That padding gives 0 is the spec's own inference. -/
def Obligations.FitTruncatesOrPadsWithPairsThatGiveZero : Prop :=
  (∀ (w cap : Nat) (chunk : List (OperandPair w)),
    fit cap chunk = chunk.take cap ++ List.replicate (cap - chunk.length) ⟨0, 0⟩ ∧
    (fit cap chunk).length = cap) ∧
  ∀ (w : Nat) (code : Code), alu (0 : Word w) 0 code = 0

/-- R172, R153, R174: after a round of an SM, lane `l` of warp `k` holds pair `k·L + l` of the fitted
chunk and the ALU's result on it, and local memory holds that result at `(k, l)`. For every code. The
routing index is the spec's own inference. -/
def Obligations.RoundLeavesEachLaneItsPairAndResult : Prop :=
  ∀ (w : Nat) (c : Config) (code : Code) (chunk : List (OperandPair w)) (sm : SM w), sm.shaped c →
    ∀ k < c.WP, ∀ l < c.L, ∃ wp ln row p,
      (sm.round c code chunk).warps[k]? = some wp ∧ wp.lanes[l]? = some ln ∧
      (sm.round c code chunk).localMem[k]? = some row ∧
      (fit c.CAP chunk)[k * c.L + l]? = some p ∧
      ln.A = p.A ∧ ln.B = p.B ∧ ln.R = alu p.A p.B code ∧ row[l]? = some ln.R

/-- R176: an SM's output is `smCompute` of its chunk, `CAP` results, whatever it held before. The spec's
own inference. -/
def Obligations.RoundComputesTheSmFunction : Prop :=
  ∀ (w : Nat) (c : Config) (code : Code) (chunk : List (OperandPair w)) (sm : SM w), sm.shaped c →
    (sm.round c code chunk).flat = smCompute c chunk code ∧ (smCompute c chunk code).length = c.CAP ∧
    (sm.round c code chunk).shaped c

/-- R154: the lanes of a warp may act in any order. The spec's own inference. -/
def Obligations.LaneOrderIsNotObservable : Prop :=
  ∀ (w : Nat) (code : Code) (wp : Warp w) (order : List Nat),
    order.Perm (List.range wp.lanes.length) → wp.runInOrder code order = wp.run code

/-- R175: the warps of an SM may run and gather in any order. The spec's own inference. -/
def Obligations.WarpOrderIsNotObservable : Prop :=
  ∀ (w : Nat) (code : Code) (sm : SM w) (order : List Nat),
    sm.localMem.length = sm.warps.length → order.Perm (List.range sm.warps.length) →
    sm.runInOrder code order = (sm.run code).gather

/-- R207: the SMs may do their rounds in any order. The spec's own inference. -/
def Obligations.SmOrderIsNotObservable : Prop :=
  ∀ (w : Nat) (c : Config) (code : Code) (d : Device w) (order : List Nat),
    d.chunks.length = d.sms.length → order.Perm (List.range d.sms.length) →
    d.runInOrder c code order = { d with sms := d.dispatch c code }

/-! ### EXECUTE -/

/-- R206: EXECUTE out of phase is a SequenceError, which sets the fault bit, whatever its code; in phase
every code but MUL's is an UnsupportedOperationError. Nothing else changes. SequenceError and its fault bit
are the spec's own decision D13, the phases D13 and D32, sequence before opcode D16 (R248). -/
def Obligations.ExecuteRefusesOutOfPhaseThenEveryCodeButMul : Prop :=
  (∀ (s : State) (i : Instr), s.port = .device →
    (s.dev.phase = .empty ∨ s.dev.phase = .loaded) →
    exec i s = .next { s with
      dev := { s.dev with fault := true }
      responses := s.responses ++ [.device .sequenceError none] }) ∧
  ∀ (s : State) (i : Instr), s.port = .device → i ≠ .mul →
    (s.dev.phase = .partitioned ∨ s.dev.phase = .executed) →
    exec i s = .next { s with responses := s.responses ++ [.device .unsupportedOperationError none] }

/-- R208: the result stream has `S · CAP` entries; entry `k·CAP + u` is the truncated product of pair
`u` of chunk `k`, or 0 where there is none. The spec's own inference. -/
def Obligations.ResultStreamHoldsTheProductsOfEachChunk : Prop :=
  ∀ (w : Nat) (c : Config) (d : Device w), shapedArena c d.sms → d.chunks.length = c.S →
    (∀ ch ∈ d.chunks, ch.start + ch.len ≤ d.pairs.length) →
    (resultStream (d.dispatch c 0b101#3)).length = c.S * c.CAP ∧
    ∀ k < c.S, ∀ u < c.CAP, ∃ ch,
      d.chunks[k]? = some ch ∧
      if u < min ch.len c.CAP then ∃ p y, d.pairs[ch.start + u]? = some p ∧
        (resultStream (d.dispatch c 0b101#3))[k * c.CAP + u]? = some y ∧
        dec y = dec p.A * dec p.B % 2 ^ w
      else (resultStream (d.dispatch c 0b101#3))[k * c.CAP + u]? = some 0

/-- R209: a DOT EXECUTE replaces cell 0 by the sum of the result stream modulo 2^32 and writes no other
cell; it leaves the arena as its rounds do, goes to phase EXECUTED and answers success; nothing else
changes (R213). That it replaces is the spec's own decision D14, modulo 2^32 its D7. -/
def Obligations.ExecuteDotWritesTheSumToCellZero : Prop :=
  ∀ s : State, s.Inv → s.port = .device → (s.dev.phase = .partitioned ∨ s.dev.phase = .executed) →
    s.dev.operation = .dot →
    ∃ gmem : Memory,
      exec .mul s = .next { s with
        dev := { s.dev with sms := s.dev.dispatch s.cfg 0b101#3, gmem := gmem, phase := .executed }
        responses := s.responses ++ [.device .success none] } ∧
      gmem.wf ∧
      gmem.read 0 = BitVec.ofNat 32 (((s.dev.chunks.map fun ch =>
        smCompute s.cfg (chunkPairs s.dev.pairs ch) 0b101#3).flatten).map dec).sum ∧
      ∀ cell, cell ≠ 0 → gmem.read cell = s.dev.gmem.read cell

/-- R210: over the MATMUL split, canonical index `p` lies in SM `p div P` at place `p mod P`, and has a
result exactly when that place is below `CAP`. The spec's own inference. -/
def Obligations.RealIndicesAreThoseBelowTheCapacity : Prop :=
  ∀ (w cap T S : Nat) (rs : List (Word w)), 0 < S → ∀ p < T,
    smOf (matmulSplit T S) p = some (p / ceilDiv T S) ∧
    realResult cap (matmulSplit T S) rs p =
      if p % ceilDiv T S < cap then rs[p / ceilDiv T S * cap + p % ceilDiv T S]? else none

/-- R211: each accumulator is the sum modulo 2^32 of the real results whose task is its output cell. Modulo
2^32 is the spec's own decision D7; which results are real is its inference (R210; 90_conflicts.md C5). -/
def Obligations.MatmulAccumulatorsSumTheRealResults : Prop :=
  ∀ (w cap m n : Nat) (tasks : List TaskCoord) (chunks : List Chunk) (rs : List (Word w)),
    (∀ task ∈ tasks, ∃ i j x, task = .cell i j x ∧ i < m ∧ j < n) →
    ∀ i < m, ∀ j < n,
      (matmulSums cap m n tasks chunks rs)[i * n + j]? = some (BitVec.ofNat 32
        (∑ p ∈ Finset.range tasks.length,
          match tasks[p]?, realResult cap chunks rs p with
          | some (.cell i' j' _), some r => if i' = i ∧ j' = j then dec r else 0
          | _, _ => 0))

/-- R211, R212, R220: a MATMUL EXECUTE writes to cell `i·n + j` the sum modulo 2^32 of the truncated
products of the pairs that no SM dropped, for every output cell, and to no other cell; it answers
success and changes nothing else but the arena and the phase. Which pairs are dropped (R210) is the
spec's own inference, modulo 2^32 its decision D7. -/
def Obligations.ExecuteMatmulWritesEveryOutputCell : Prop :=
  ∀ (s : State) (m k n : Nat) (a b : List (Word s.cfg.W)), s.Inv → s.port = .device →
    (s.dev.phase = .partitioned ∨ s.dev.phase = .executed) → s.dev.operation = .matmul →
    s.dev.store = .matrices m k n a b →
    ∃ gmem : Memory,
      exec .mul s = .next { s with
        dev := { s.dev with sms := s.dev.dispatch s.cfg 0b101#3, gmem := gmem, phase := .executed }
        responses := s.responses ++ [.device .success none] } ∧
      gmem.wf ∧
      (∀ i < m, ∀ j < n, gmem.read (i * n + j) = BitVec.ofNat 32 (∑ x ∈ Finset.range k,
        if ((i * n + j) * k + x) % ceilDiv (m * n * k) s.cfg.S < s.cfg.CAP then
          dec (a.getD (i * k + x) 0) * dec (b.getD (x * n + j) 0) % 2 ^ s.cfg.W
        else 0)) ∧
      ∀ cell, m * n ≤ cell → gmem.read cell = s.dev.gmem.read cell

/-- R37: the lanes and local memories that an EXECUTE finds are overwritten before they are read: with
any others in their place it gives the very same next state. The spec's own inference. -/
def Obligations.ExecuteDoesNotReadTheStaleArena : Prop :=
  ∀ (s : State) (sms : List (SM s.cfg.W)), s.Inv → shapedArena s.cfg sms → s.port = .device →
    (s.dev.phase = .partitioned ∨ s.dev.phase = .executed) →
    exec .mul { s with dev := { s.dev with sms := sms } } = exec .mul s

/-- R37: no request at all lets the lanes and local memories it finds reach a response, global memory or
any other state but the arena: with any others in their place the next state is the same but for the arena,
which keeps its shape. The spec's own inference. -/
def Obligations.NoStepLeaksTheStaleArena : Prop :=
  ∀ (s t : State) (sms : List (SM s.cfg.W)), s.Inv → shapedArena s.cfg sms → step s = .next t →
    ∃ sms', shapedArena t.cfg sms' ∧
      step { s with dev := { s.dev with sms := sms } } = .next { t with dev := { t.dev with sms := sms' } }

/-- R213: EXECUTE again, straight after an EXECUTE, recomputes and rewrites the same values. The spec's
own inference. -/
def Obligations.RepeatedExecuteRewritesTheSameValues : Prop :=
  ∀ s t : State, s.Inv → s.port = .device →
    (s.dev.phase = .partitioned ∨ s.dev.phase = .executed) → exec .mul s = .next t →
    exec .mul t = .next { t with responses := t.responses ++ [.device .success none] }

/-! ### LOAD, PARTITION, RECONSTRUCT -/

/-- R193, R197: a DOT LOAD of two 1-D or two 2-D operands of equal, non-zero length stores them as
`enc_W`, clears the partition state, goes to phase LOADED and answers success, in any phase; nothing
else changes. The chunk table as S empty rows: log entry 5. -/
def Obligations.LoadDotStoresTheEncodedOperands : Prop :=
  ∀ (s : State) (opA opB : Operand) (xs ys : List Int) (rest : List Request),
    s.nextIs (.load opA opB .dot) rest →
    ((∃ na nb, opA = .vec na xs ∧ opB = .vec nb ys) ∨
      ∃ ra ca rb cb, opA = .mat ra ca xs ∧ opB = .mat rb cb ys) →
    xs.length = ys.length → 0 < xs.length →
    step s = .next { s with
      pending := rest
      dev := { s.dev with
        operation := .dot
        store := .vectors (xs.map (enc s.cfg.W)) (ys.map (enc s.cfg.W))
        pairs := []
        taskMap := []
        chunks := List.replicate s.cfg.S ⟨0, 0⟩
        phase := .loaded }
      responses := s.responses ++ [.device .success none] }

/-- R194, R197: a MATMUL LOAD of an `m × k` and a `k × n` operand, no dimension 0 and `m·n ≤ G`. The
chunk table as S empty rows: log entry 5. -/
def Obligations.LoadMatmulStoresTheEncodedOperands : Prop :=
  ∀ (s : State) (m k n : Nat) (xs ys : List Int) (rest : List Request),
    s.nextIs (.load (.mat m k xs) (.mat k n ys) .matmul) rest →
    0 < m → 0 < k → 0 < n → m * n ≤ s.cfg.G →
    step s = .next { s with
      pending := rest
      dev := { s.dev with
        operation := .matmul
        store := .matrices m k n (xs.map (enc s.cfg.W)) (ys.map (enc s.cfg.W))
        pairs := []
        taskMap := []
        chunks := List.replicate s.cfg.S ⟨0, 0⟩
        phase := .loaded }
      responses := s.responses ++ [.device .success none] }

/-- R242: the seven causes of a ShapeError, each of which changes nothing. A mix of ranks (c) is the
spec's own decision D10, an empty operand (f) D11 (R195), too large an output (g) D12. -/
def Obligations.LoadRaisesShapeErrorForEachCause : Prop :=
  ∀ (s : State) (opA opB : Operand) (name : OpName) (rest : List Request),
    s.nextIs (.load opA opB name) rest →
    ((name = .dot ∧ ∃ na nb da db, opA = .vec na da ∧ opB = .vec nb db ∧ na ≠ nb) ∨
      (name = .dot ∧ ∃ ra ca rb cb da db,
        opA = .mat ra ca da ∧ opB = .mat rb cb db ∧ ra * ca ≠ rb * cb) ∨
      (name = .dot ∧ ∃ na ra ca da db,
        opA = .vec na da ∧ opB = .mat ra ca db ∨ opA = .mat ra ca da ∧ opB = .vec na db) ∨
      (name = .matmul ∧ ∃ na d, opA = .vec na d ∨ opB = .vec na d) ∨
      (name = .matmul ∧ ∃ m k k' n da db, opA = .mat m k da ∧ opB = .mat k' n db ∧ k ≠ k') ∨
      (name = .dot ∧ ∃ da db,
        opA = .vec 0 da ∧ opB = .vec 0 db ∨
        ∃ ra ca rb cb, opA = .mat ra ca da ∧ opB = .mat rb cb db ∧ ra * ca = 0 ∧ rb * cb = 0) ∨
      (name = .matmul ∧ ∃ m k n da db,
        opA = .mat m k da ∧ opB = .mat k n db ∧ (m = 0 ∨ k = 0 ∨ n = 0)) ∨
      (name = .matmul ∧ ∃ m k n da db,
        opA = .mat m k da ∧ opB = .mat k n db ∧ s.cfg.G < m * n)) →
    step s = .next { s with pending := rest, responses := s.responses ++ [.device .shapeError none] }

/-- R192 with the priority of R248: another name is an UnsupportedOperationError whatever the operands,
and changes nothing. That the name is checked before any shape is the spec's own decision D16. -/
def Obligations.LoadOfAnotherNameIsUnsupported : Prop :=
  ∀ (s : State) (opA opB : Operand) (tag : String) (rest : List Request),
    s.nextIs (.load opA opB (.other tag)) rest →
    step s = .next { s with
      pending := rest
      responses := s.responses ++ [.device .unsupportedOperationError none] }

/-- R199, R200, R201, R205: a DOT PARTITION pairs the operands by index, records the flattened index, and
splits by R200's formula; nothing else changes but the phase. The task map is the spec's own decision D20,
and a chunk of 0 or 1 pairs when `S > N` its D30. -/
def Obligations.PartitionDotBuildsTheStream : Prop :=
  ∀ (s : State) (a b : List (Word s.cfg.W)) (rest : List Request),
    s.nextIs .partition rest → s.dev.phase ≠ .empty → s.dev.operation = .dot →
    s.dev.store = .vectors a b → a.length = b.length →
    ∃ pairs tasks chunks,
      step s = .next { s with
        pending := rest
        dev := { s.dev with pairs := pairs, taskMap := tasks, chunks := chunks, phase := .partitioned }
        responses := s.responses ++ [.device .success none] } ∧
      pairs.length = a.length ∧ tasks.length = a.length ∧ chunks.length = s.cfg.S ∧
      (∀ p < a.length, pairs[p]? = some ⟨a.getD p 0, b.getD p 0⟩ ∧ tasks[p]? = some (.flat p)) ∧
      ∀ k < s.cfg.S, chunks[k]? = some
        { start := k * (a.length / s.cfg.S) + min k (a.length % s.cfg.S)
          len := a.length / s.cfg.S + if k < a.length % s.cfg.S then 1 else 0 }

/-- R202, R203, R204, R205: a MATMUL PARTITION enumerates output cells row-major and the reduction index
inside, pairs `A[i][x]` with `B[x][j]`, and splits into runs of `P = ceil(T / S)`, the least `P` with `T
≤ P·S`. The pair values (R203) are the spec's own inference. -/
def Obligations.PartitionMatmulBuildsTheCanonicalStream : Prop :=
  ∀ (s : State) (m k n : Nat) (a b : List (Word s.cfg.W)) (rest : List Request),
    s.nextIs .partition rest → s.dev.phase ≠ .empty → s.dev.operation = .matmul →
    s.dev.store = .matrices m k n a b →
    ∃ pairs tasks chunks,
      step s = .next { s with
        pending := rest
        dev := { s.dev with pairs := pairs, taskMap := tasks, chunks := chunks, phase := .partitioned }
        responses := s.responses ++ [.device .success none] } ∧
      pairs.length = m * n * k ∧ tasks.length = m * n * k ∧ chunks.length = s.cfg.S ∧
      (∀ i < m, ∀ j < n, ∀ x < k,
        tasks[(i * n + j) * k + x]? = some (.cell i j x) ∧
        pairs[(i * n + j) * k + x]? = some ⟨a.getD (i * k + x) 0, b.getD (x * n + j) 0⟩) ∧
      ∀ P, m * n * k ≤ P * s.cfg.S → (∀ P', m * n * k ≤ P' * s.cfg.S → P ≤ P') →
        ∀ q < s.cfg.S, chunks[q]? = some
          { start := min (q * P) (m * n * k)
            len := min ((q + 1) * P) (m * n * k) - min (q * P) (m * n * k) }

/-- R200: the DOT chunks are in order, disjoint and cover `[0, N)`, and differ in size by at most one,
earlier ones larger. The spec's own inference. -/
def Obligations.DotSplitIsContiguousAndNearEqual : Prop :=
  ∀ N S : Nat, 0 < S →
    (dotChunk N S 0).start = 0 ∧
    (∀ k, (dotChunk N S (k + 1)).start = (dotChunk N S k).start + (dotChunk N S k).len) ∧
    (dotChunk N S (S - 1)).start + (dotChunk N S (S - 1)).len = N ∧
    ∀ j k, j ≤ k → (dotChunk N S k).len ≤ (dotChunk N S j).len ∧
      (dotChunk N S j).len ≤ (dotChunk N S k).len + 1

/-- R204, R210: the MATMUL chunks are in order, disjoint and cover `[0, T)`, none longer than `P =
ceil(T / S)`, and every one before a non-empty one is full. The spec's own inference. -/
def Obligations.MatmulSplitIsContiguousAndFull : Prop :=
  ∀ T S : Nat, 0 < S →
    (matmulChunk T S 0).start = 0 ∧
    (∀ k, (matmulChunk T S (k + 1)).start = (matmulChunk T S k).start + (matmulChunk T S k).len) ∧
    (matmulChunk T S (S - 1)).start + (matmulChunk T S (S - 1)).len = T ∧
    (∀ k, (matmulChunk T S k).len ≤ ceilDiv T S) ∧
    ∀ k, 0 < (matmulChunk T S (k + 1)).len → (matmulChunk T S k).len = ceilDiv T S

/-- R205: PARTITION again, once partitioned, rewrites the same values. The spec's own inference. -/
def Obligations.RepeatedPartitionRewritesTheSameValues : Prop :=
  ∀ (s : State) (rest : List Request), s.Inv → s.nextIs .partition rest →
    (s.dev.phase = .partitioned ∨ s.dev.phase = .executed) →
    step s = .next { s with
      pending := rest
      dev := { s.dev with phase := .partitioned }
      responses := s.responses ++ [.device .success none] }

/-- R245, R198, R214: the causes of a SequenceError, and no other; it sets the sticky fault bit and
changes nothing else. This error is wholly the spec's own, decision D13. -/
def Obligations.SequenceErrorHasTheseCauses : Prop :=
  (∀ (s : State) (cmd : Command) (rest : List Request), s.nextIs cmd rest →
    (cmd = .partition ∨ cmd = .reconstruct) → s.dev.phase = .empty →
    step s = .next { s with
      pending := rest
      dev := { s.dev with fault := true }
      responses := s.responses ++ [.device .sequenceError none] }) ∧
  (∀ (s : State) (code : Code) (rest : List Request), s.nextIs (.execute code) rest →
    (s.dev.phase = .empty ∨ s.dev.phase = .loaded) →
    step s = .next { s with
      pending := rest
      port := .device
      dev := { s.dev with fault := true }
      responses := s.responses ++ [.device .sequenceError none] }) ∧
  ∀ (s t : State) (cmd : Command) (rest : List Request) (data : Option Data), s.nextIs cmd rest →
    step s = .next t → t.responses = s.responses ++ [.device .sequenceError data] →
    ((cmd = .partition ∨ cmd = .reconstruct) ∧ s.dev.phase = .empty) ∨
      ((∃ code, cmd = .execute code) ∧ (s.dev.phase = .empty ∨ s.dev.phase = .loaded))

/-- R215: RECONSTRUCT of a DOT workload answers cell 0, read as a signed 32-bit number, and writes no
state. The signed reading is the spec's own decision D7; that it answers the cell as it stands before an
EXECUTE too is its D15 (R217). -/
def Obligations.ReconstructDotAnswersCellZero : Prop :=
  ∀ (s : State) (rest : List Request), s.nextIs .reconstruct rest → s.dev.phase ≠ .empty →
    s.dev.operation = .dot →
    step s = .next { s with
      pending := rest
      responses := s.responses ++ [.device .success (some (.scalar (s.dev.gmem.read 0).toInt))] }

/-- R216: RECONSTRUCT of a MATMUL workload answers cells `[0, m·n)` as `m` rows of `n`, read as signed
32-bit numbers, and writes no state. The signed reading is the spec's own decision D7; that it answers the
cells as they stand before an EXECUTE too is its D15 (R217). -/
def Obligations.ReconstructMatmulAnswersTheOutputCells : Prop :=
  ∀ (s : State) (m k n : Nat) (a b : List (Word s.cfg.W)) (rest : List Request),
    s.nextIs .reconstruct rest → s.dev.phase ≠ .empty → s.dev.operation = .matmul →
    s.dev.store = .matrices m k n a b → m * n ≤ s.cfg.G →
    step s = .next { s with
      pending := rest
      responses := s.responses ++ [.device .success (some (.array
        ((List.range m).map fun i => (List.range n).map fun j =>
          (s.dev.gmem.read (i * n + j)).toInt)))] }

/-- R218: RECONSTRUCT twice with nothing between answers the same data twice; it writes no state, and
SequenceError is its only error. That error and its fault bit are the spec's own decision D13 (R214). -/
def Obligations.ReconstructIsIdempotent : Prop :=
  (∀ (s : State) (rest : List Request), s.Inv → s.dev.phase ≠ .empty →
    (∃ h, s.pending = ⟨.reconstruct, h⟩ :: ⟨.reconstruct, h⟩ :: rest) →
    ∃ (t : State) (data : Data), step s = .next t ∧
      step t = .next { s with
        pending := rest
        responses := s.responses ++
          [.device .success (some data), .device .success (some data)] }) ∧
  ∀ (s t : State) (rest : List Request), s.nextIs .reconstruct rest → step s = .next t →
    (∃ data, t = { s with
      pending := rest
      responses := s.responses ++ [.device .success (some data)] }) ∨
    t = { s with
      pending := rest
      dev := { s.dev with fault := true }
      responses := s.responses ++ [.device .sequenceError none] }

/-! ### Whole runs. A claim about a run takes `noFault` as a premise (60_exceptions.md R259; decision D13):
the fault bit is clear when the run starts and, as `State.runsTo` says, when it ends. -/

/-- R219: LOAD, PARTITION, EXECUTE, RECONSTRUCT of two 1-D or two 2-D operands of equal, non-zero length
answers the sum, modulo 2^32 and read signed (decision D7), of the truncated products of the pairs that no
SM drops. The spec's own inference. -/
def Obligations.DotRunAnswersTheTruncatedSum : Prop :=
  ∀ (s : State) (opA opB : Operand) (xs ys : List Int), s.Inv → s.noFault →
    dotOperands opA opB xs ys → xs.length = ys.length → 0 < xs.length →
    (s.pending.map Subtype.val).take 4 =
      [.load opA opB .dot, .partition, .execute 0b101#3, .reconstruct] →
    ∃ t : State, s.runsTo 4 t ∧ t.pending = s.pending.drop 4 ∧ t.dev.phase = .executed ∧
      t.responses = s.responses ++ [.device .success none, .device .success none,
        .device .success none, .device .success (some (.scalar (BitVec.ofNat 32
          (∑ k ∈ Finset.range s.cfg.S,
            ∑ u ∈ Finset.range (min (dotChunk xs.length s.cfg.S k).len s.cfg.CAP),
              dec (enc s.cfg.W (xs.getD ((dotChunk xs.length s.cfg.S k).start + u) 0)) *
                dec (enc s.cfg.W (ys.getD ((dotChunk xs.length s.cfg.S k).start + u) 0)) %
                2 ^ s.cfg.W)).toInt))]

/-- R219 with its conditions (i) to (iv): the run answers the standard inner product. The spec's own
inference. -/
def Obligations.DotRunAnswersTheInnerProduct : Prop :=
  ∀ (s : State) (opA opB : Operand) (xs ys : List Int), s.Inv → s.noFault →
    dotOperands opA opB xs ys → xs.length = ys.length → 0 < xs.length →
    (∀ p < xs.length, fitsWidth s.cfg.W (xs.getD p 0) (ys.getD p 0)) →
    fitsCapacity s.cfg xs.length →
    fitsCell (∑ p ∈ Finset.range xs.length, xs.getD p 0 * ys.getD p 0) →
    (s.pending.map Subtype.val).take 4 =
      [.load opA opB .dot, .partition, .execute 0b101#3, .reconstruct] →
    ∃ t : State, s.runsTo 4 t ∧ t.pending = s.pending.drop 4 ∧
      t.responses = s.responses ++ [.device .success none, .device .success none,
        .device .success none, .device .success (some (.scalar
          (∑ p ∈ Finset.range xs.length, xs.getD p 0 * ys.getD p 0)))]

/-- R220: LOAD, PARTITION, EXECUTE, RECONSTRUCT of two matrices answers, at each `(i, j)`, the sum,
modulo 2^32 and read signed (decision D7), of the truncated products of the pairs that no SM drops. The
spec's own inference. -/
def Obligations.MatmulRunAnswersTheTruncatedSums : Prop :=
  ∀ (s : State) (m k n : Nat) (xs ys : List Int), s.Inv → s.noFault → 0 < m → 0 < k → 0 < n →
    m * n ≤ s.cfg.G →
    (s.pending.map Subtype.val).take 4 =
      [.load (.mat m k xs) (.mat k n ys) .matmul, .partition, .execute 0b101#3, .reconstruct] →
    ∃ t : State, s.runsTo 4 t ∧ t.pending = s.pending.drop 4 ∧ t.dev.phase = .executed ∧
      t.responses = s.responses ++ [.device .success none, .device .success none,
        .device .success none, .device .success (some (.array
          ((List.range m).map fun i => (List.range n).map fun j => (BitVec.ofNat 32
            (∑ x ∈ Finset.range k,
              if ((i * n + j) * k + x) % ceilDiv (m * n * k) s.cfg.S < s.cfg.CAP then
                dec (enc s.cfg.W (xs.getD (i * k + x) 0)) *
                  dec (enc s.cfg.W (ys.getD (x * n + j) 0)) % 2 ^ s.cfg.W
              else 0)).toInt)))]

/-- R220 with its conditions (i) to (iv): the run answers the standard matrix product. The spec's own
inference. -/
def Obligations.MatmulRunAnswersTheMatrixProduct : Prop :=
  ∀ (s : State) (m k n : Nat) (xs ys : List Int), s.Inv → s.noFault → 0 < m → 0 < k → 0 < n →
    m * n ≤ s.cfg.G →
    (∀ i < m, ∀ j < n, ∀ x < k, fitsWidth s.cfg.W (xs.getD (i * k + x) 0) (ys.getD (x * n + j) 0)) →
    fitsCapacity s.cfg (m * n * k) →
    (∀ i < m, ∀ j < n,
      fitsCell (∑ x ∈ Finset.range k, xs.getD (i * k + x) 0 * ys.getD (x * n + j) 0)) →
    (s.pending.map Subtype.val).take 4 =
      [.load (.mat m k xs) (.mat k n ys) .matmul, .partition, .execute 0b101#3, .reconstruct] →
    ∃ t : State, s.runsTo 4 t ∧ t.pending = s.pending.drop 4 ∧
      t.responses = s.responses ++ [.device .success none, .device .success none,
        .device .success none, .device .success (some (.array
          ((List.range m).map fun i => (List.range n).map fun j =>
            ∑ x ∈ Finset.range k, xs.getD (i * k + x) 0 * ys.getD (x * n + j) 0)))]

/-! ### Reset, invariants, whole-machine rules -/

/-- R36, R52: what reset leaves, where the spec gives a value: phase EMPTY, fault 0, no operands, an
empty partition state, every global-memory cell 0. For every configuration. But for global memory the
values are the spec's own decision D13 and D17; the chunk table as S empty rows: log entry 5. -/
def Obligations.ResetLeavesTheSpecValues : Prop :=
  (∀ c : Config, (State.construct c).dev.cleanReset c.S ∧ (State.construct c).cfg = c ∧
    ∀ cell, (State.construct c).dev.gmem.read cell = 0) ∧
  State.reset = State.construct Config.built

/-- Reset meets the invariant, for every configuration. -/
def Obligations.ResetMeetsTheInvariant : Prop :=
  (∀ c : Config, (State.construct c).Inv) ∧ State.reset.Inv

/-- Every step keeps the invariant: global memory canonical and in range, the arena's shape, the
operand store and the partition state in step with the phase (R20, R26, R27, R29, R197, R205). -/
def Obligations.StepKeepsTheInvariant : Prop :=
  ∀ s t : State, s.Inv → step s = .next t → t.Inv

/-- From every state that meets the invariant the next step answers: no request stops the machine (R281,
R241). The spec's own inference. -/
def Obligations.EveryStepAnswers : Prop :=
  ∀ s : State, s.Inv → ∃ t, step s = .next t

/-- R26: under the invariant the task map is as long as the pair stream, and every chunk lies in the
stream. -/
def Obligations.TaskMapIsParallelToThePairStream : Prop :=
  ∀ s : State, s.Inv → s.dev.taskMap.length = s.dev.pairs.length ∧ s.dev.chunks.length = s.cfg.S ∧
    ∀ ch ∈ s.dev.chunks, ch.start + ch.len ≤ s.dev.pairs.length

/-- R5, R32: no step writes a construction parameter. -/
def Obligations.ConfigurationIsNeverWritten : Prop :=
  ∀ s t : State, step s = .next t → t.cfg = s.cfg

/-- R22: the phase's encoding, and that a step changes the phase only by a successful LOAD, PARTITION or
EXECUTE, each to its own phase. The register and its encoding are the spec's own decision D13. -/
def Obligations.OnlyThreeCommandsWriteThePhase : Prop :=
  (Phase.code .empty = 0 ∧ Phase.code .loaded = 1 ∧ Phase.code .partitioned = 2 ∧
    Phase.code .executed = 3) ∧
  ∀ (s t : State) (cmd : Command) (rest : List Request), s.nextIs cmd rest → step s = .next t →
    t.dev.phase = s.dev.phase ∨
    (t.responses = s.responses ++ [.device .success none] ∧
      ((∃ opA opB name, cmd = .load opA opB name) ∧ t.dev.phase = .loaded ∨
        cmd = .partition ∧ t.dev.phase = .partitioned ∨
        (∃ code, cmd = .execute code) ∧ t.dev.phase = .executed))

/-- R23: the fault bit is set by exactly the SequenceErrors, is cleared by reset and by nothing else, and
does not change how later commands behave. R259: so a run ends with the bit clear exactly when it started so
and answered no SequenceError. The bit is the spec's own, decision D13. -/
def Obligations.FaultBitIsStickyAndInert : Prop :=
  (∀ c : Config, (State.construct c).noFault) ∧
  (∀ (s t : State) (cmd : Command) (rest : List Request), s.nextIs cmd rest → step s = .next t →
    (t.dev.fault = true ↔
      s.dev.fault = true ∨ t.responses = s.responses ++ [.device .sequenceError none])) ∧
  (∀ s t : State, step s = .next t →
    step { s with dev := { s.dev with fault := true } } =
      .next { t with dev := { t.dev with fault := true } }) ∧
  ∀ (n : Nat) (s t : State), Host.Core.run Sys2Proof.core n s = .next t →
    ∃ given, t.responses = s.responses ++ given ∧
      (t.noFault ↔ s.noFault ∧ ∀ data, .device .sequenceError data ∉ given)

/-- R51: only EXECUTE writes global memory, and only the output cells; only RECONSTRUCT reads it. Whatever
memory is in its place, every other command answers the same next state with that memory kept, and EXECUTE
the same next state with the same values in its output cells and that memory kept elsewhere. -/
def Obligations.OnlyExecuteWritesAndOnlyReconstructReadsGlobalMemory : Prop :=
  (∀ (s t : State) (cmd : Command) (rest : List Request), s.nextIs cmd rest → step s = .next t →
    (∀ code, cmd ≠ .execute code) → t.dev.gmem = s.dev.gmem) ∧
  (∀ (s t : State) (code : Code) (rest : List Request), s.nextIs (.execute code) rest →
    step s = .next t → ∀ cell, t.dev.gmem.read cell ≠ s.dev.gmem.read cell → s.dev.outputCell cell) ∧
  (∀ (s t : State) (m : Memory) (cmd : Command) (rest : List Request), s.nextIs cmd rest →
    cmd ≠ .reconstruct → (∀ code, cmd ≠ .execute code) → step s = .next t →
    step { s with dev := { s.dev with gmem := m } } = .next { t with dev := { t.dev with gmem := m } }) ∧
  ∀ (s t : State) (m : Memory) (code : Code) (rest : List Request), s.nextIs (.execute code) rest →
    s.dev.gmem.wf → m.wf → step s = .next t →
    ∃ m' : Memory, m'.wf ∧
      step { s with dev := { s.dev with gmem := m } } = .next { t with dev := { t.dev with gmem := m' } } ∧
      if t.responses = s.responses ++ [.device .success none] then
        ∀ cell, (s.dev.outputCell cell → m'.read cell = t.dev.gmem.read cell) ∧
          (¬s.dev.outputCell cell → m'.read cell = m.read cell)
      else m' = m

/-- R34, R258: every request is answered by one response, and only a successful RECONSTRUCT carries
data; with no request pending the block is idle and keeps all state. -/
def Obligations.EveryRequestGetsOneResponse : Prop :=
  (∀ (s t : State) (cmd : Command) (rest : List Request), s.nextIs cmd rest → step s = .next t →
    t.pending = rest ∧ ∃ r, t.responses = s.responses ++ [r] ∧
      match r with
      | .alu _ => ∃ a b form, cmd = .alu a b form
      | .device status data => (∀ a b form, cmd ≠ .alu a b form) ∧
        (data.isSome = true ↔ status = .success ∧ cmd = .reconstruct)) ∧
  ∀ s : State, s.pending = [] → step s = .next s

/-- R241: a command that raises an error changes no state, except that SequenceError sets the fault
bit; its no-mutation rule is the spec's own decision D13. The latched port may change: log entry 7. -/
def Obligations.ErrorsChangeNothing : Prop :=
  ∀ (s t : State) (cmd : Command) (rest : List Request) (e : Status) (data : Option Data),
    s.nextIs cmd rest → step s = .next t → e ≠ .success →
    t.responses = s.responses ++ [.device e data] →
    data = none ∧ t = { s with
      pending := rest
      port := t.port
      dev := { s.dev with fault := s.dev.fault || decide (e = .sequenceError) }
      responses := s.responses ++ [.device e none] }

/-- R240, R244: the status codes, and the statuses a command can answer; EncodingError is never raised. The
numeric codes and SequenceError are the spec's own decisions D23 and D13, that nothing is refused by
encoding its D2. -/
def Obligations.EachStatusComesOnlyFromItsCommands : Prop :=
  (Status.code .success = 0 ∧ Status.code .shapeError = 1 ∧
    Status.code .unsupportedOperationError = 2 ∧ Status.code .encodingError = 3 ∧
    Status.code .sequenceError = 4) ∧
  ∀ (s t : State) (cmd : Command) (rest : List Request) (e : Status) (data : Option Data),
    s.nextIs cmd rest → step s = .next t → t.responses = s.responses ++ [.device e data] →
    match e with
    | .success => True
    | .shapeError => ∃ opA opB name, cmd = .load opA opB name
    | .unsupportedOperationError =>
      (∃ opA opB name, cmd = .load opA opB name) ∨ ∃ code, cmd = .execute code
    | .encodingError => False
    | .sequenceError => cmd = .partition ∨ cmd = .reconstruct ∨ ∃ code, cmd = .execute code
end

