-- ==== Sys2Proof/Laws/Arena.lean ====
section
/-!
SUPPORT. The arena (42_lane_warp.md, 43_sm.md): what fitting and routing give, that an SM's round keeps
its shape, and where each lane's registers and each local-memory cell come from.
-/

namespace Sys2Proof.Machine

variable {w : Nat}

/-- A fitted chunk has exactly the capacity (R171). -/
theorem fit_length (cap : Nat) (chunk : List (OperandPair w)) : (fit cap chunk).length = cap := by
  unfold fit
  split
  · rw [List.length_take]; omega
  · rw [List.length_append, List.length_replicate]; omega

/-- Entry `u` of a fitted chunk: the chunk's own pair, or padding (R171). -/
theorem fit_getElem? (cap : Nat) (chunk : List (OperandPair w)) {u : Nat} (hu : u < cap) :
    (fit cap chunk)[u]? = some (chunk.getD u (paddingPair w)) := by
  unfold fit
  split
  · rw [List.getElem?_take_of_lt hu, List.getElem?_eq_getElem (by omega)]
    simp [List.getD, List.getElem?_eq_getElem (show u < chunk.length by omega)]
  · by_cases h : u < chunk.length
    · rw [List.getElem?_append_left h]
      simp [List.getD, List.getElem?_eq_getElem h]
    · rw [List.getElem?_append_right (by omega), List.getElem?_replicate, if_pos (by omega)]
      simp [List.getD, List.getElem?_eq_none (show chunk.length ≤ u by omega)]

@[simp] theorem groups_length {α : Type} (size n : Nat) (f : List α) : (groups size n f).length = n := by
  induction n generalizing f with
  | zero => rfl
  | succ n ih => simp [groups, ih]

/-- Group `k` is the slice at `k · size` (R172). -/
theorem groups_getElem? {α : Type} (size n : Nat) (f : List α) {k : Nat} (hk : k < n) :
    (groups size n f)[k]? = some ((f.drop (k * size)).take size) := by
  induction n generalizing f k with
  | zero => omega
  | succ n ih =>
    cases k with
    | zero => simp [groups]
    | succ k =>
      simp only [groups, List.getElem?_cons_succ]
      rw [ih (f.drop size) (by omega), List.drop_drop]
      congr 3
      rw [Nat.succ_mul]; omega

/-- Cutting into groups and joining them again gives the whole, if it is of the right length. -/
theorem groups_flatten {α : Type} (size n : Nat) (f : List α) (h : f.length = n * size) :
    (groups size n f).flatten = f := by
  induction n generalizing f with
  | zero => simp_all [groups]
  | succ n ih =>
    rw [Nat.succ_mul] at h
    simp only [groups, List.flatten_cons]
    rw [ih _ (by rw [List.length_drop]; omega), List.take_append_drop]

/-- Every group of a sequence of the right length has the right size. -/
theorem groups_length_mem {α : Type} (size n : Nat) (f : List α) (h : f.length = n * size) :
    ∀ g ∈ groups size n f, g.length = size := by
  induction n generalizing f with
  | zero => simp [groups]
  | succ n ih =>
    rw [Nat.succ_mul] at h
    intro g hg
    simp only [groups, List.mem_cons] at hg
    rcases hg with rfl | hg
    · rw [List.length_take]; omega
    · exact ih _ (by rw [List.length_drop]; omega) g hg

@[simp] theorem Warp.loadWork_length (wp : Warp w) (q : List (OperandPair w)) :
    (wp.loadWork q).lanes.length = min wp.lanes.length q.length := by simp [Warp.loadWork]

@[simp] theorem Warp.run_length (code : Code) (wp : Warp w) :
    (wp.run code).lanes.length = wp.lanes.length := by simp [Warp.run]

@[simp] theorem Warp.gatherResults_length (wp : Warp w) :
    wp.gatherResults.length = wp.lanes.length := by simp [Warp.gatherResults]

/-- The results of a warp that loads one pair per lane and runs: the ALU on each pair (R152, R153,
R155). -/
theorem Warp.gather_run_load (code : Code) (wp : Warp w) (q : List (OperandPair w))
    (h : q.length ≤ wp.lanes.length) :
    ((wp.loadWork q).run code).gatherResults = q.map fun p => alu p.A p.B code := by
  obtain ⟨lanes⟩ := wp
  simp only [Warp.loadWork, Warp.run, Warp.gatherResults] at h ⊢
  induction q generalizing lanes with
  | nil => simp
  | cons p q ih =>
    cases lanes with
    | nil => simp at h
    | cons ln lanes =>
      simp only [List.length_cons, Nat.add_le_add_iff_right] at h
      simp only [List.zipWith_cons_cons, List.map_cons, ih lanes h]
      rfl

/-- A row of the right length is written whole (R174). -/
theorem writeRow_eq (row results : List (Word w)) (h : results.length = row.length) :
    writeRow row results = results := by
  induction row generalizing results with
  | nil => simp_all [writeRow]
  | cons v row ih =>
    cases results with
    | nil => simp at h
    | cons r results =>
      simp only [writeRow, List.zipWith_cons_cons, List.cons.injEq, true_and]
      exact ih results (by simpa using h)

/-- Rows of the right lengths are all written whole. -/
theorem zipWith_writeRow (lm rows : List (List (Word w))) {L : Nat} (hlen : rows.length = lm.length)
    (hl : ∀ row ∈ lm, row.length = L) (hr : ∀ row ∈ rows, row.length = L) :
    List.zipWith writeRow lm rows = rows := by
  induction lm generalizing rows with
  | nil => simp_all
  | cons row lm ih =>
    cases rows with
    | nil => simp at hlen
    | cons r rows =>
      simp only [List.zipWith_cons_cons, List.cons.injEq]
      exact ⟨writeRow_eq row r (by rw [hl row (by simp), hr r (by simp)]),
        ih rows (by simpa using hlen) (fun x hx => hl x (by simp [hx])) fun x hx => hr x (by simp [hx])⟩

section Round
variable {c : Config} {sm : SM w} (chunk : List (OperandPair w)) (code : Code)

theorem fit_groups_length : ∀ g ∈ groups c.L c.WP (fit c.CAP chunk), g.length = c.L :=
  groups_length_mem _ _ _ (by rw [fit_length]; rfl)

/-- The warps after a round: each loaded with its group and run. -/
theorem SM.round_warps :
    (sm.round c code chunk).warps =
      List.zipWith (fun wp q => (wp.loadWork q).run code) sm.warps (groups c.L c.WP (fit c.CAP chunk)) := by
  simp [SM.round, SM.gather, SM.run, SM.distribute, List.map_zipWith]

/-- The results a shaped SM gathers in a round, warp by warp (R174). -/
theorem SM.round_gathered (h : sm.shaped c) :
    (sm.round c code chunk).warps.map Warp.gatherResults =
      (groups c.L c.WP (fit c.CAP chunk)).map fun g => g.map fun p => alu p.A p.B code := by
  rw [SM.round_warps, List.map_zipWith]
  have hg := fit_groups_length (c := c) chunk
  have hlen : (groups c.L c.WP (fit c.CAP chunk)).length = sm.warps.length := by simp [h.1]
  have hw := h.2.1
  revert hg hlen hw
  generalize groups c.L c.WP (fit c.CAP chunk) = gs
  generalize sm.warps = ws
  intro hg hlen hw
  induction gs generalizing ws with
  | nil => simp
  | cons g gs ih =>
    cases ws with
    | nil => simp at hlen
    | cons wp ws =>
      simp only [List.zipWith_cons_cons, List.map_cons]
      rw [Warp.gather_run_load code wp g (by rw [hg g (by simp), hw wp (by simp)]),
        ih ws (fun x hx => hg x (by simp [hx])) (by simpa using hlen) fun x hx => hw x (by simp [hx])]

/-- The local memory of a shaped SM after a round: its results, warp by warp (R174). -/
theorem SM.round_localMem (h : sm.shaped c) :
    (sm.round c code chunk).localMem =
      (groups c.L c.WP (fit c.CAP chunk)).map fun g => g.map fun p => alu p.A p.B code := by
  have hrows := SM.round_gathered chunk code h
  have hlm : (sm.round c code chunk).localMem =
      List.zipWith writeRow sm.localMem ((sm.round c code chunk).warps.map Warp.gatherResults) := by
    simp [SM.round, SM.gather, SM.run, SM.distribute]
  rw [hlm, hrows]
  refine zipWith_writeRow _ _ (L := c.L) (by simp [h.2.2.1]) h.2.2.2 fun row hrow => ?_
  obtain ⟨g, hg, rfl⟩ := List.mem_map.1 hrow
  simpa using fit_groups_length chunk g hg

/-- A round keeps the shape of an SM. -/
theorem SM.round_shaped (h : sm.shaped c) : (sm.round c code chunk).shaped c := by
  have hg := fit_groups_length (c := c) chunk
  refine ⟨by simp [SM.round_warps, h.1], fun wp hwp => ?_, by simp [SM.round_localMem chunk code h],
    fun row hrow => ?_⟩
  · rw [SM.round_warps] at hwp
    obtain ⟨i, hi, rfl⟩ := List.mem_iff_getElem.1 hwp
    simp only [List.length_zipWith] at hi
    rw [List.getElem_zipWith, Warp.run_length, Warp.loadWork_length,
      h.2.1 _ (List.getElem_mem _), hg _ (List.getElem_mem _), Nat.min_self]
  · rw [SM.round_localMem chunk code h] at hrow
    obtain ⟨g, hgm, rfl⟩ := List.mem_map.1 hrow
    simpa using hg g hgm

end Round

/-- A warp loaded with one pair per lane and run holds the pairs and their results, whatever it held
before (42_lane_warp.md R152, R153). -/
theorem Warp.run_load_eq (code : Code) (wp : Warp w) (q : List (OperandPair w))
    (h : q.length = wp.lanes.length) :
    (wp.loadWork q).run code = ⟨q.map fun p => ⟨p.A, p.B, alu p.A p.B code⟩⟩ := by
  obtain ⟨lanes⟩ := wp
  simp only [Warp.loadWork, Warp.run, Warp.mk.injEq] at h ⊢
  induction q generalizing lanes with
  | nil => simp
  | cons p q ih =>
    cases lanes with
    | nil => simp at h
    | cons ln lanes =>
      simp only [List.zipWith_cons_cons, List.map_cons, ih lanes (by simpa using h)]
      rfl

/-- The whole SM after a round: it does not depend on what the SM held before (10_state.md R37). -/
theorem SM.round_eq {c : Config} {sm : SM w} (code : Code) (chunk : List (OperandPair w))
    (h : sm.shaped c) :
    sm.round c code chunk =
    { warps := (groups c.L c.WP (fit c.CAP chunk)).map fun g => ⟨g.map fun p => ⟨p.A, p.B, alu p.A p.B code⟩⟩
      localMem := (groups c.L c.WP (fit c.CAP chunk)).map fun g => g.map fun p => alu p.A p.B code } := by
  have h1 := SM.round_localMem chunk code h
  have h2 := SM.round_warps (c := c) (sm := sm) chunk code
  have hg := fit_groups_length (c := c) chunk
  cases hr : sm.round c code chunk with
  | mk ws lm =>
  rw [hr] at h1 h2
  simp only at h1 h2
  rw [h1, h2]
  congr 1
  have hlen : (groups c.L c.WP (fit c.CAP chunk)).length = sm.warps.length := by simp [h.1]
  have hw := h.2.1
  revert hg hlen hw
  clear h1 h2 hr
  generalize groups c.L c.WP (fit c.CAP chunk) = gs
  generalize sm.warps = ws
  intro hg hlen hw
  induction gs generalizing ws with
  | nil => simp
  | cons g gs ih =>
    cases ws with
    | nil => simp at hlen
    | cons wp ws =>
      simp only [List.zipWith_cons_cons, List.map_cons]
      rw [Warp.run_load_eq code wp g (by rw [hg g (by simp), hw wp (by simp)]),
        ih ws (fun x hx => hg x (by simp [hx])) (by simpa using hlen) fun x hx => hw x (by simp [hx])]

/-- Entry `u` of an SM's output (R176). -/
theorem smCompute_getElem? (c : Config) (chunk : List (OperandPair w)) (code : Code) {u : Nat}
    (hu : u < c.CAP) :
    (smCompute c chunk code)[u]? =
      some (alu (chunk.getD u (paddingPair w)).A (chunk.getD u (paddingPair w)).B code) := by
  rw [smCompute, List.getElem?_map, fit_getElem? _ _ hu]
  rfl

/-- A dispatch keeps the shape of the arena. -/
theorem Device.dispatch_shaped {c : Config} {d : Device w} (code : Code) (hlen : d.chunks.length = c.S)
    (h : shapedArena c d.sms) : shapedArena c (d.dispatch c code) := by
  refine ⟨by simp [Device.dispatch, hlen, h.1], fun sm hsm => ?_⟩
  obtain ⟨i, hi, rfl⟩ := List.mem_iff_getElem.1 hsm
  simp only [Device.dispatch, List.getElem_zipWith]
  exact SM.round_shaped _ _ (h.2 _ (List.getElem_mem _))

end Sys2Proof.Machine
end

