-- ==== Sys2Proof/Laws/Memory.lean ====
section
/-!
SUPPORT. Global memory: a read after a write, and that every memory operation keeps the canonical form
and writes only cells that exist (20_memory.md R50 to R52).
-/

namespace Sys2Proof.Machine

/-- A cell that no entry names holds 0. -/
theorem Memory.read_unlisted {m : Memory} {c : Nat} (h : ∀ e ∈ m, e.1 ≠ c) : m.read c = 0 := by
  induction m with
  | nil => rfl
  | cons e rest ih =>
    simp only [Memory.read]
    rw [if_neg (h e (by simp))]
    exact ih fun e' he' => h e' (by simp [he'])

/-- The keys of a written memory are the old ones and the written cell. -/
theorem Memory.mem_write {m : Memory} {c : Nat} {v : Cell} {e : Nat × Cell} (h : e ∈ m.write c v) :
    e = (c, v) ∨ e ∈ m := by
  induction m with
  | nil => simp only [Memory.write] at h; split at h <;> simp_all
  | cons x rest ih =>
    obtain ⟨k, x⟩ := x
    simp only [Memory.write] at h
    split at h
    · split at h <;> simp_all
    · split at h
      · split at h
        · simp_all
        · rcases List.mem_cons.1 h with h | h <;> simp [h]
      · rcases List.mem_cons.1 h with h | h
        · exact .inr (by simp [h])
        · rcases ih h with h | h <;> simp [h]

/-- A write keeps the canonical form. -/
theorem Memory.write_wf {m : Memory} (c : Nat) (v : Cell) (h : m.wf) : (m.write c v).wf := by
  obtain ⟨hp, hz⟩ := h
  refine ⟨?_, fun e he => ?_⟩
  · clear hz
    induction m with
    | nil => simp only [Memory.write]; split <;> simp
    | cons x rest ih =>
      obtain ⟨k, x⟩ := x
      rw [List.pairwise_cons] at hp
      simp only [Memory.write]
      split
      · rename_i hck
        split
        · exact List.pairwise_cons.2 hp
        · refine List.pairwise_cons.2 ⟨fun e he => ?_, List.pairwise_cons.2 hp⟩
          rcases List.mem_cons.1 he with rfl | he
          · exact hck
          · exact Nat.lt_trans hck (hp.1 e he)
      · split
        · rename_i hck
          split
          · exact hp.2
          · exact List.pairwise_cons.2 ⟨fun e he => hck ▸ hp.1 e he, hp.2⟩
        · refine List.pairwise_cons.2 ⟨fun e he => ?_, ih hp.2⟩
          rcases Memory.mem_write he with rfl | he
          · show k < c
            omega
          · exact hp.1 e he
  · clear hp
    induction m with
    | nil => simp only [Memory.write] at he; split at he <;> simp_all
    | cons x rest ih =>
      obtain ⟨k, x⟩ := x
      simp only [Memory.write] at he
      split at he
      · split at he
        · exact hz e he
        · rcases List.mem_cons.1 he with rfl | he
          · assumption
          · exact hz e he
      · split at he
        · split at he
          · exact hz e (List.mem_cons_of_mem _ he)
          · rcases List.mem_cons.1 he with rfl | he
            · assumption
            · exact hz e (List.mem_cons_of_mem _ he)
        · rcases List.mem_cons.1 he with rfl | he
          · exact hz _ (by simp)
          · exact ih (fun e' he' => hz e' (List.mem_cons_of_mem _ he')) he

/-- A written cell reads as written (canonical form is needed: only there does removing the entry
leave the cell unlisted). -/
theorem Memory.read_write_same {m : Memory} (c : Nat) (v : Cell) (h : m.wf) :
    (m.write c v).read c = v := by
  obtain ⟨hp, -⟩ := h
  induction m with
  | nil => simp only [Memory.write]; split <;> simp_all [Memory.read]
  | cons x rest ih =>
    obtain ⟨k, x⟩ := x
    rw [List.pairwise_cons] at hp
    have hrest : ∀ e ∈ rest, k < e.1 := fun e he => hp.1 e he
    simp only [Memory.write]
    split
    · split
      · rename_i hck hv
        rw [hv]
        refine Memory.read_unlisted fun e he => ?_
        rcases List.mem_cons.1 he with rfl | he
        · simp; omega
        · have := hrest e he; omega
      · simp [Memory.read]
    · split
      · split
        · rename_i _ hck hv
          rw [hv]
          exact Memory.read_unlisted fun e he => by have := hrest e he; omega
        · simp [Memory.read]
      · simp only [Memory.read]
        rw [if_neg (by omega)]
        exact ih hp.2

/-- Every other cell reads as before. -/
theorem Memory.read_write_other {m : Memory} {c c' : Nat} (v : Cell) (hne : c' ≠ c) :
    (m.write c v).read c' = m.read c' := by
  induction m with
  | nil => simp only [Memory.write]; split <;> simp [Memory.read, Ne.symm hne]
  | cons x rest ih =>
    obtain ⟨k, x⟩ := x
    simp only [Memory.write]
    split
    · split
      · rfl
      · simp [Memory.read, Ne.symm hne]
    · split
      · rename_i hck
        subst hck
        split <;> simp [Memory.read, Ne.symm hne]
      · simp only [Memory.read]
        split
        · rfl
        · exact ih

/-- A write to a cell that exists keeps the memory invariant. -/
theorem Memory.Inv.write {G : Nat} {m : Memory} {c : Nat} (v : Cell) (h : m.Inv G) (hc : c < G) :
    (m.write c v).Inv G := by
  refine ⟨Memory.write_wf c v h.1, fun e he => ?_⟩
  rcases Memory.mem_write he with rfl | he
  · exact hc
  · exact h.2 e he

/-- Memories in canonical form that hold the same are equal. -/
theorem Memory.ext {m m' : Memory} (h : m.wf) (h' : m'.wf) (he : ∀ c, m.read c = m'.read c) : m = m' := by
  have tail : ∀ {e : Nat × Cell} {r : Memory}, Memory.wf (e :: r) → Memory.wf r ∧ (∀ x ∈ r, e.1 < x.1) ∧ e.2 ≠ 0 := by
    intro e r h
    obtain ⟨h1, h2⟩ := h
    rw [List.pairwise_cons] at h1
    exact ⟨⟨h1.2, fun x hx => h2 x (by simp [hx])⟩, h1.1, h2 e (by simp)⟩
  have low : ∀ {e : Nat × Cell} {r : Memory} {c}, Memory.wf (e :: r) → c < e.1 → Memory.read (e :: r) c = 0 := by
    intro e r c h hc
    refine Memory.read_unlisted fun x hx => ?_
    rcases List.mem_cons.1 hx with rfl | hx
    · omega
    · have := (tail h).2.1 x hx; omega
  have hd : ∀ (e : Nat × Cell) (r : Memory), Memory.read (e :: r) e.1 = e.2 := fun e r => by simp [Memory.read]
  induction m generalizing m' with
  | nil =>
    cases m' with
    | nil => rfl
    | cons e r => exact absurd ((hd e r).symm.trans (he e.1).symm) (tail h').2.2
  | cons e r ih =>
    cases m' with
    | nil => exact absurd ((hd e r).symm.trans (he e.1)) (tail h).2.2
    | cons e' r' =>
      have hk : e.1 = e'.1 := by
        rcases Nat.lt_trichotomy e.1 e'.1 with hlt | heq | hgt
        · exact absurd ((hd e r).symm.trans ((he e.1).trans (low h' hlt))) (tail h).2.2
        · exact heq
        · exact absurd ((hd e' r').symm.trans ((he e'.1).symm.trans (low h hgt))) (tail h').2.2
      have hv : e.2 = e'.2 := by rw [← hd e r, he, hk, hd]
      have hee : e = e' := Prod.ext hk hv
      subst hee
      congr 1
      refine ih (tail h).1 (tail h').1 fun c => ?_
      have hc := he c
      by_cases hce : e.1 = c
      · subst hce
        rw [Memory.read_unlisted fun x hx => by have := (tail h).2.1 x hx; omega,
          Memory.read_unlisted fun x hx => by have := (tail h').2.1 x hx; omega]
      · simpa [Memory.read, hce] using hc

/-- A run of writes keeps the canonical form. -/
theorem Memory.foldl_write_wf (ws : List (Nat × Cell)) (m : Memory) (h : m.wf) : (ws.foldl (fun m e => m.write e.1 e.2) m).wf := by
  induction ws generalizing m with
  | nil => exact h
  | cons e ws ih => exact ih _ (Memory.write_wf _ _ h)

/-- What a run of writes leaves in a cell, if the value written depends on the cell alone. -/
theorem Memory.foldl_write_read (g : Nat → Cell) (ws : List (Nat × Cell)) (m : Memory) (h : m.wf)
    (hg : ∀ e ∈ ws, e.2 = g e.1) (c : Nat) :
    (ws.foldl (fun m e => m.write e.1 e.2) m).read c = if c ∈ ws.map Prod.fst then g c else m.read c := by
  induction ws generalizing m with
  | nil => simp
  | cons e ws ih =>
    rw [List.foldl_cons, ih _ (Memory.write_wf _ _ h) (fun e he => hg e (by simp [he]))]
    by_cases hc : c = e.1
    · subst hc
      have := Memory.read_write_same e.1 e.2 h
      rw [this, hg e (by simp)]; simp
    · rw [Memory.read_write_other e.2 hc]
      simp [hc]

/-- A run of writes again, straight after, changes nothing. -/
theorem Memory.foldl_write_idem (g : Nat → Cell) (ws : List (Nat × Cell)) (m : Memory) (h : m.wf)
    (hg : ∀ e ∈ ws, e.2 = g e.1) :
    ws.foldl (fun m e => m.write e.1 e.2) (ws.foldl (fun m e => m.write e.1 e.2) m) =
      ws.foldl (fun m e => m.write e.1 e.2) m := by
  refine Memory.ext (Memory.foldl_write_wf _ _ (Memory.foldl_write_wf _ _ h))
    (Memory.foldl_write_wf _ _ h) fun c => ?_
  rw [Memory.foldl_write_read g ws _ (Memory.foldl_write_wf _ _ h) hg, Memory.foldl_write_read g ws _ h hg]
  split <;> rfl

/-- A run of writes leaves every cell it does not name. -/
theorem Memory.foldl_write_other (ws : List (Nat × Cell)) (m : Memory) {c : Nat}
    (h : ∀ e ∈ ws, e.1 ≠ c) : (ws.foldl (fun m e => m.write e.1 e.2) m).read c = m.read c := by
  induction ws generalizing m with
  | nil => rfl
  | cons e ws ih =>
    rw [List.foldl_cons, ih _ fun e he => h e (by simp [he]), Memory.read_write_other _ (h e (by simp)).symm]

/-- MemWrite answers exactly when the cell exists, with the written memory. -/
theorem memWrite_eq_ok {G : Nat} {m m' : Memory} {c : Nat} {v : Cell} :
    memWrite G m c v = .ok m' ↔ c < G ∧ m' = m.write c v := by
  unfold memWrite
  split <;> simp_all [eq_comm]

/-- A run of MemWrites to cells that exist answers, with the writes done in order. -/
theorem memWriteAll_eq_ok {G : Nat} (m : Memory) (ws : List (Nat × Cell)) (h : ∀ e ∈ ws, e.1 < G) :
    memWriteAll G m ws = .ok (ws.foldl (fun m e => m.write e.1 e.2) m) := by
  induction ws generalizing m with
  | nil => rfl
  | cons e ws ih =>
    obtain ⟨c, v⟩ := e
    have hc : c < G := h (c, v) (by simp)
    simp only [memWriteAll, memWrite, if_pos hc, List.foldl_cons]
    exact ih _ fun e he => h e (by simp [he])

/-- Conversely, a run of MemWrites that answers wrote only cells that exist. -/
theorem memWriteAll_ok_bound {G : Nat} {m m' : Memory} {ws : List (Nat × Cell)}
    (h : memWriteAll G m ws = .ok m') : ∀ e ∈ ws, e.1 < G := by
  induction ws generalizing m with
  | nil => simp
  | cons e ws ih =>
    obtain ⟨c, v⟩ := e
    simp only [memWriteAll] at h
    split at h
    · rename_i m1 h1
      intro e he
      rcases List.mem_cons.1 he with rfl | he
      · exact (memWrite_eq_ok.1 h1).1
      · exact ih h e he
    · cases h

/-- A run of MemWrites keeps the memory invariant. -/
theorem memWriteAll_inv {G : Nat} {m m' : Memory} {ws : List (Nat × Cell)}
    (h : memWriteAll G m ws = .ok m') (hm : m.Inv G) : m'.Inv G := by
  induction ws generalizing m with
  | nil => simp only [memWriteAll, Except.ok.injEq] at h; exact h ▸ hm
  | cons e ws ih =>
    obtain ⟨c, v⟩ := e
    simp only [memWriteAll] at h
    split at h
    · rename_i m1 h1
      obtain ⟨hc, rfl⟩ := memWrite_eq_ok.1 h1
      exact ih h (hm.write v hc)
    · cases h

/-- Reads of cells that exist answer with the cells as they stand. -/
theorem memReadAll_eq_ok {G : Nat} (m : Memory) (cs : List Nat) (h : ∀ c ∈ cs, c < G) :
    memReadAll G m cs = .ok (cs.map m.read) := by
  induction cs with
  | nil => rfl
  | cons c cs ih =>
    have hc : c < G := h c (by simp)
    simp only [memReadAll, memRead, if_pos hc, ih fun c hc => h c (by simp [hc]), List.map_cons]

/-- RECONSTRUCT's row reads answer when every cell of every row exists. -/
theorem readRows_eq_ok {G : Nat} (m : Memory) (n : Nat) (rows : List Nat)
    (h : ∀ i ∈ rows, ∀ j < n, i * n + j < G) :
    readRows G m n rows =
      .ok (rows.map fun i => (List.range n).map fun j => sint32 (m.read (i * n + j))) := by
  induction rows with
  | nil => rfl
  | cons i rows ih =>
    have hi : ∀ c ∈ rowCells n i, c < G := by
      intro c hc
      simp only [rowCells, List.mem_map, List.mem_range] at hc
      obtain ⟨j, hj, rfl⟩ := hc
      exact h i (by simp) j hj
    simp only [readRows, memReadAll_eq_ok m _ hi, ih fun i hi => h i (by simp [hi]), List.map_cons,
      Except.ok.injEq, List.cons.injEq, and_true]
    simp [rowCells, Function.comp_def]

end Sys2Proof.Machine
end

