-- ==== Sys2Proof/Laws/State.lean ====
section
/-!
SUPPORT. One lemma per field per update of the state, each true by `rfl`.
-/

namespace Sys2Proof.Machine

section SetDev
variable (s : State) (d : Device s.cfg.W)
@[simp] theorem State.setDev_cfg : (s.setDev d).cfg = s.cfg := rfl
@[simp] theorem State.setDev_dev : (s.setDev d).dev = d := rfl
@[simp] theorem State.setDev_port : (s.setDev d).port = s.port := rfl
@[simp] theorem State.setDev_pending : (s.setDev d).pending = s.pending := rfl
@[simp] theorem State.setDev_responses : (s.setDev d).responses = s.responses := rfl
end SetDev

section Respond
variable (s : State) (r : Response)
@[simp] theorem State.respond_cfg : (s.respond r).cfg = s.cfg := rfl
@[simp] theorem State.respond_dev : (s.respond r).dev = s.dev := rfl
@[simp] theorem State.respond_port : (s.respond r).port = s.port := rfl
@[simp] theorem State.respond_pending : (s.respond r).pending = s.pending := rfl
@[simp] theorem State.respond_responses : (s.respond r).responses = s.responses ++ [r] := rfl
end Respond

section Succeed
variable (s : State) (data : Option Data)
@[simp] theorem State.succeed_cfg : (s.succeed data).cfg = s.cfg := rfl
@[simp] theorem State.succeed_dev : (s.succeed data).dev = s.dev := rfl
@[simp] theorem State.succeed_port : (s.succeed data).port = s.port := rfl
@[simp] theorem State.succeed_pending : (s.succeed data).pending = s.pending := rfl
@[simp] theorem State.succeed_responses :
    (s.succeed data).responses = s.responses ++ [.device .success data] := rfl
end Succeed

section Request
variable (s : State) (req : Request)
@[simp] theorem State.request_cfg : (s.request req).cfg = s.cfg := rfl
@[simp] theorem State.request_dev : (s.request req).dev = s.dev := rfl
@[simp] theorem State.request_port : (s.request req).port = s.port := rfl
@[simp] theorem State.request_pending : (s.request req).pending = req :: s.pending := rfl
@[simp] theorem State.request_responses : (s.request req).responses = s.responses := rfl
end Request

section LoadWorkload
variable {w : Nat} (S : Nat) (op : Operation) (st : OperandStore w) (d : Device w)
@[simp] theorem Device.loadWorkload_phase : (d.loadWorkload S op st).phase = .loaded := rfl
@[simp] theorem Device.loadWorkload_fault : (d.loadWorkload S op st).fault = d.fault := rfl
@[simp] theorem Device.loadWorkload_operation : (d.loadWorkload S op st).operation = op := rfl
@[simp] theorem Device.loadWorkload_store : (d.loadWorkload S op st).store = st := rfl
@[simp] theorem Device.loadWorkload_pairs : (d.loadWorkload S op st).pairs = [] := rfl
@[simp] theorem Device.loadWorkload_taskMap : (d.loadWorkload S op st).taskMap = [] := rfl
@[simp] theorem Device.loadWorkload_chunks : (d.loadWorkload S op st).chunks = emptyChunks S := rfl
@[simp] theorem Device.loadWorkload_sms : (d.loadWorkload S op st).sms = d.sms := rfl
@[simp] theorem Device.loadWorkload_gmem : (d.loadWorkload S op st).gmem = d.gmem := rfl
end LoadWorkload

section Raise
variable (s : State) (e : Status)
@[simp] theorem State.raise_cfg : (s.raise e).cfg = s.cfg := rfl
@[simp] theorem State.raise_dev :
    (s.raise e).dev = { s.dev with fault := s.dev.fault || e.setsFault } := rfl
@[simp] theorem State.raise_port : (s.raise e).port = s.port := rfl
@[simp] theorem State.raise_pending : (s.raise e).pending = s.pending := rfl
@[simp] theorem State.raise_responses :
    (s.raise e).responses = s.responses ++ [.device e none] := rfl

/-- An error other than SequenceError changes nothing but the response list (60_exceptions.md R241). -/
theorem State.raise_of_not_setsFault (h : e.setsFault = false) : s.raise e = s.respond (.device e none) := by
  rw [State.raise, h, Bool.or_false]; rfl

/-- SequenceError also sets the fault bit (R245). -/
theorem State.raise_sequenceError :
    s.raise .sequenceError =
      (s.setDev { s.dev with fault := true }).respond (.device .sequenceError none) := by
  rw [State.raise, Status.setsFault, Bool.or_true]
end Raise

end Sys2Proof.Machine
end

