-- ==== Sys2Proof/Laws/Commands.lean ====
section
/-!
SUPPORT. What each command, each instruction and each step can do, said once: later proofs cite these and
do not unfold the operations again.
-/

namespace Sys2Proof.Machine

/-- Every arm of the dispatch is one opcode presented at the port in progress. -/
theorem exec_eq (i : Instr) (s : State) :
    exec i s = presentOpcode (encode i) (aluOp (.op i)) s := by
  cases i <;> rfl

/-- An instruction at a direct ALU port answers its integer result and changes nothing else. -/
theorem exec_direct {s : State} {a b : Int} (i : Instr) (h : s.port = .direct a b) :
    exec i s = .next (s.respond (.alu (aluExec s.cfg.W (aluOp (.op i)) a b))) := by
  rw [exec_eq, presentOpcode, h]

/-- An instruction at the Device is the EXECUTE of its code. -/
theorem exec_device {s : State} (i : Instr) (h : s.port = .device) :
    exec i s = deviceExecute (encode i) s := by
  rw [exec_eq, presentOpcode, h]

theorem decodeBits_encode (i : Instr) : decodeBits (encode i) = .op i := by cases i <;> rfl

/-- Every 3-bit code is some instruction's. -/
theorem exists_encode (code : Code) : ∃ i, code = encode i ∧ decodeBits code = .op i := by
  have h : ∀ c : Code, c = encode ((opcodeTable[c.toNat]?).getD .nop) ∧
      decodeBits c = .op ((opcodeTable[c.toNat]?).getD .nop) := by decide
  exact ⟨_, h code⟩

/-- EXECUTE's request runs `deviceExecute` with the port at the Device. -/
theorem runExecute_eq (code : Code) (s : State) :
    runExecute code s = deviceExecute code { s with port := .device } := by
  obtain ⟨i, rfl, h⟩ := exists_encode code
  rw [runExecute, h]
  exact exec_device i rfl

/-- A direct ALU use answers its integer result and changes nothing but the port (41_alu.md R124,
R134). -/
theorem runAlu_eq (a b : Int) (code : Decoded) (s : State) :
    runAlu a b code s =
      .next (State.respond { s with port := .direct a b } (.alu (aluExec s.cfg.W (aluOp code) a b))) := by
  cases code with
  | op i => exact exec_direct i rfl
  | invalid => rfl

/-- A computation that may meet a fault answers a next state exactly when it meets none. -/
theorem answerWith_eq_next {α : Type} {r : Except Fault α} {k : α → State} {t : State} :
    answerWith r k = .next t ↔ ∃ x, r = .ok x ∧ t = k x := by
  cases r <;> simp [answerWith, eq_comm]

/-- LOAD stores a workload and answers success, or raises one error. -/
theorem deviceLoad_cases {opA opB : Operand} {name : OpName} {s t : State}
    (h : deviceLoad opA opB name s = .next t) :
    (∃ op st, loadOperands s.cfg.W s.cfg.G opA opB name = .ok (op, st) ∧
      t = (s.setDev (s.dev.loadWorkload s.cfg.S op st)).succeed none) ∨
    ∃ e, loadOperands s.cfg.W s.cfg.G opA opB name = .error e ∧ t = s.raise e := by
  unfold deviceLoad at h
  split at h <;> injection h with h
  · exact .inl ⟨_, _, ‹_›, h.symm⟩
  · exact .inr ⟨_, ‹_›, h.symm⟩

/-- LOAD always answers. -/
theorem deviceLoad_answers (opA opB : Operand) (name : OpName) (s : State) :
    ∃ t, deviceLoad opA opB name s = .next t := by
  unfold deviceLoad
  split <;> exact ⟨_, rfl⟩

/-- The errors that LOAD raises (60_exceptions.md R240). -/
theorem loadOperands_error {w G : Nat} {opA opB : Operand} {name : OpName} {e : Status}
    (h : loadOperands w G opA opB name = .error e) :
    e = .shapeError ∨ e = .unsupportedOperationError := by
  have hv : ∀ na nb da db, loadVectors w na nb da db = .error e → e = .shapeError := by
    intro na nb da db h
    unfold loadVectors at h
    split at h
    · exact (Except.error.inj h).symm
    · split at h
      · exact (Except.error.inj h).symm
      · cases h
  cases name with
  | other tag => exact .inr (Except.error.inj h).symm
  | dot =>
    left
    cases opA <;> cases opB <;> simp only [loadOperands, loadDot, Except.map] at h
    case vec.vec => split at h <;> cases h; exact hv _ _ _ _ ‹_›
    case mat.mat => split at h <;> cases h; exact hv _ _ _ _ ‹_›
    all_goals exact (Except.error.inj h).symm
  | matmul =>
    left
    cases opA <;> cases opB <;> simp only [loadOperands, loadMatmul, Except.map] at h
    case mat.mat =>
      split at h <;> cases h
      rename_i he
      split at he
      · exact (Except.error.inj he).symm
      · split at he
        · exact (Except.error.inj he).symm
        · split at he
          · exact (Except.error.inj he).symm
          · cases he
    all_goals exact (Except.error.inj h).symm

/-- PARTITION partitions and answers success, or raises SequenceError. -/
theorem devicePartition_cases {s t : State} (h : devicePartition s = .next t) :
    (s.dev.phase.hasWorkload = true ∧ ∃ d, s.dev.partition s.cfg.S = .ok d ∧
      t = (s.setDev d).succeed none) ∨
    (s.dev.phase.hasWorkload = false ∧ t = s.raise .sequenceError) := by
  unfold devicePartition at h
  cases hp : s.dev.phase.hasWorkload <;> rw [hp] at h
  · exact .inr ⟨rfl, (Host.Outcome.next.inj h).symm⟩
  · exact .inl ⟨rfl, answerWith_eq_next.1 h⟩

/-- EXECUTE executes and answers success, or raises one error. -/
theorem deviceExecute_cases {code : Code} {s t : State} (h : deviceExecute code s = .next t) :
    (s.dev.phase.hasPartition = true ∧ code = encode .mul ∧ ∃ d, s.dev.execute s.cfg code = .ok d ∧
      t = (s.setDev d).succeed none) ∨
    (s.dev.phase.hasPartition = true ∧ code ≠ encode .mul ∧ t = s.raise .unsupportedOperationError) ∨
    (s.dev.phase.hasPartition = false ∧ t = s.raise .sequenceError) := by
  unfold deviceExecute at h
  cases hp : s.dev.phase.hasPartition <;> rw [hp] at h
  · exact .inr (.inr ⟨rfl, (Host.Outcome.next.inj h).symm⟩)
  · by_cases hc : code = encode .mul
    · rw [if_pos rfl, if_pos hc] at h
      exact .inl ⟨rfl, hc, answerWith_eq_next.1 h⟩
    · rw [if_pos rfl, if_neg hc] at h
      exact .inr (.inl ⟨rfl, hc, (Host.Outcome.next.inj h).symm⟩)

/-- RECONSTRUCT answers the output and writes no state, or raises SequenceError. -/
theorem deviceReconstruct_cases {s t : State} (h : deviceReconstruct s = .next t) :
    (s.dev.phase.hasWorkload = true ∧ ∃ data, s.dev.output s.cfg.G = .ok data ∧
      t = s.succeed (some data)) ∨
    (s.dev.phase.hasWorkload = false ∧ t = s.raise .sequenceError) := by
  unfold deviceReconstruct at h
  cases hp : s.dev.phase.hasWorkload <;> rw [hp] at h
  · exact .inr ⟨rfl, (Host.Outcome.next.inj h).symm⟩
  · exact .inl ⟨rfl, answerWith_eq_next.1 h⟩

/-- LOAD of operands that fit a workload. -/
theorem deviceLoad_ok {opA opB : Operand} {name : OpName} {s : State} {op : Operation}
    {st : OperandStore s.cfg.W} (h : loadOperands s.cfg.W s.cfg.G opA opB name = .ok (op, st)) :
    deviceLoad opA opB name s = .next ((s.setDev (s.dev.loadWorkload s.cfg.S op st)).succeed none) := by
  simp only [deviceLoad, h]

/-- LOAD of operands that do not. -/
theorem deviceLoad_error {opA opB : Operand} {name : OpName} {s : State} {e : Status}
    (h : loadOperands s.cfg.W s.cfg.G opA opB name = .error e) :
    deviceLoad opA opB name s = .next (s.raise e) := by
  simp only [deviceLoad, h]

/-- PARTITION of a loaded workload. -/
theorem devicePartition_ok {s : State} {d : Device s.cfg.W} (hp : s.dev.phase.hasWorkload = true)
    (h : s.dev.partition s.cfg.S = .ok d) : devicePartition s = .next ((s.setDev d).succeed none) := by
  rw [devicePartition, if_pos hp, h, answerWith]

/-- PARTITION with nothing loaded. -/
theorem devicePartition_empty {s : State} (hp : s.dev.phase.hasWorkload = false) :
    devicePartition s = .next (s.raise .sequenceError) := by
  rw [devicePartition, hp, if_neg (by decide)]

/-- EXECUTE of MUL in phase. -/
theorem deviceExecute_ok {code : Code} {s : State} {d : Device s.cfg.W}
    (hp : s.dev.phase.hasPartition = true) (hc : code = encode .mul)
    (h : s.dev.execute s.cfg code = .ok d) :
    deviceExecute code s = .next ((s.setDev d).succeed none) := by
  rw [deviceExecute, if_pos hp, if_pos hc, h, answerWith]

/-- EXECUTE of another code in phase. -/
theorem deviceExecute_unsupported {code : Code} {s : State} (hp : s.dev.phase.hasPartition = true)
    (hc : code ≠ encode .mul) :
    deviceExecute code s = .next (s.raise .unsupportedOperationError) := by
  rw [deviceExecute, if_pos hp, if_neg hc]

/-- EXECUTE out of phase. -/
theorem deviceExecute_outOfPhase {code : Code} {s : State} (hp : s.dev.phase.hasPartition = false) :
    deviceExecute code s = .next (s.raise .sequenceError) := by
  rw [deviceExecute, hp, if_neg (by decide)]

/-- RECONSTRUCT of a loaded workload. -/
theorem deviceReconstruct_ok {s : State} {data : Data} (hp : s.dev.phase.hasWorkload = true)
    (h : s.dev.output s.cfg.G = .ok data) : deviceReconstruct s = .next (s.succeed (some data)) := by
  rw [deviceReconstruct, if_pos hp, h, answerWith]

/-- RECONSTRUCT with nothing loaded. -/
theorem deviceReconstruct_empty {s : State} (hp : s.dev.phase.hasWorkload = false) :
    deviceReconstruct s = .next (s.raise .sequenceError) := by
  rw [deviceReconstruct, hp, if_neg (by decide)]

/-- What PARTITION writes (44_device.md R205): the partition of the operands, and the phase. -/
theorem Device.partition_eq_ok {w S : Nat} {d d' : Device w} (h : d.partition S = .ok d') :
    ∃ ps ts cs, partitionOf S d.operation d.store = .ok (ps, ts, cs) ∧
      d' = { d with pairs := ps, taskMap := ts, chunks := cs, phase := .partitioned } := by
  unfold Device.partition at h
  cases hp : partitionOf S d.operation d.store with
  | error f => rw [hp] at h; cases h
  | ok r => rw [hp] at h; exact ⟨_, _, _, rfl, (Except.ok.inj h).symm⟩

/-- What EXECUTE writes (44_device.md R213): the arena, global memory and the phase. -/
theorem Device.execute_eq_ok {w : Nat} {c : Config} {code : Code} {d d' : Device w}
    (h : d.execute c code = .ok d') :
    ∃ m, d.accumulateInto c (resultStream (d.dispatch c code)) = .ok m ∧
      d' = { d with sms := d.dispatch c code, gmem := m, phase := .executed } := by
  unfold Device.execute at h
  cases hm : d.accumulateInto c (resultStream (d.dispatch c code)) with
  | error f => simp only [hm] at h; cases h
  | ok m => simp only [hm] at h; exact ⟨_, rfl, (Except.ok.inj h).symm⟩

/-- EXECUTE's global-memory writes keep the memory invariant. -/
theorem Device.accumulateInto_inv {w : Nat} {c : Config} {d : Device w} {rs : List (Word w)} {m : Memory}
    (h : d.accumulateInto c rs = .ok m) (hm : d.gmem.Inv c.G) : m.Inv c.G := by
  unfold Device.accumulateInto at h
  split at h
  · obtain ⟨hc, rfl⟩ := memWrite_eq_ok.1 h
    exact hm.write _ hc
  · exact memWriteAll_inv h hm
  · cases h
  · cases h

/-- What a step can do: nothing when no request is pending, else the oldest request. -/
theorem step_cases {s t : State} (h : step s = .next t) :
    (s.pending = [] ∧ t = s) ∨
    ∃ req rest, s.pending = req :: rest ∧ runCommand req.val { s with pending := rest } = .next t := by
  unfold step takeRequest at h
  split at h
  · injection h with h
    exact .inl ⟨‹_›, h.symm⟩
  · exact .inr ⟨_, _, ‹_›, h⟩

/-- A step with a request pending carries that request out. -/
theorem step_request {s : State} {req : Request} {rest : List Request} (h : s.pending = req :: rest) :
    step s = runCommand req.val { s with pending := rest } := by
  unfold step takeRequest
  rw [h]

/-- The step of the command that is next. -/
theorem step_nextIs {s : State} {cmd : Command} {rest : List Request} (h : s.nextIs cmd rest) :
    step s = runCommand cmd { s with pending := rest } := by
  obtain ⟨_, h⟩ := h
  exact step_request h

end Sys2Proof.Machine
end

