-- ==== Sys2Proof/Laws/Lists.lean ====
section
/-!
SUPPORT. The indices of row-major arrays, of chunks and of result streams (44_device.md R200 to R212),
and folds that change one list entry at a time.
-/

namespace Sys2Proof.Machine

/-- Row-major indices are one to one. -/
theorem cell_inj {n i j i' j' : Nat} (hj : j < n) (hj' : j' < n) (h : i * n + j = i' * n + j') :
    i = i' ∧ j = j' := by
  have h1 : (i * n + j) / n = i := by
    rw [Nat.mul_comm, Nat.mul_add_div (by omega), Nat.div_eq_of_lt hj]; omega
  have h2 : (i' * n + j') / n = i' := by
    rw [Nat.mul_comm, Nat.mul_add_div (by omega), Nat.div_eq_of_lt hj']; omega
  have : i = i' := by rw [← h1, ← h2, h]
  subst this
  omega

/-- Row-major indices lie in the array. -/
theorem cell_lt {m n i j : Nat} (hi : i < m) (hj : j < n) : i * n + j < m * n := by
  calc i * n + j < i * n + n := by omega
    _ = (i + 1) * n := by ring
    _ ≤ _ := Nat.mul_le_mul_right _ hi

/-- The coordinate of a canonical index (R202). -/
theorem matmulTask_eq {k n i j x : Nat} (hj : j < n) (hx : x < k) :
    matmulTask k n ((i * n + j) * k + x) = .cell i j x := by
  have h1 : ((i * n + j) * k + x) / k = i * n + j := by
    rw [Nat.mul_comm, Nat.mul_add_div (by omega), Nat.div_eq_of_lt hx]; omega
  have h2 : ((i * n + j) * k + x) % k = x := by rw [Nat.mul_comm, Nat.mul_add_mod, Nat.mod_eq_of_lt hx]
  have h3 : (i * n + j) / n = i := by
    rw [Nat.mul_comm, Nat.mul_add_div (by omega), Nat.div_eq_of_lt hj]; omega
  have h4 : (i * n + j) % n = j := by rw [Nat.mul_comm, Nat.mul_add_mod, Nat.mod_eq_of_lt hj]
  rw [matmulTask, h1, h2, h3, h4]

/-- Every entry of the MATMUL task map is a coordinate of the output. -/
theorem matmulTasks_mem {m k n : Nat} (hk : 0 < k) (hn : 0 < n) :
    ∀ task ∈ matmulTasks m k n, ∃ i j x, task = .cell i j x ∧ i < m ∧ j < n := by
  intro t ht
  obtain ⟨p, hp, rfl⟩ := List.mem_map.1 ht
  rw [List.mem_range] at hp
  refine ⟨_, _, _, rfl, ?_, Nat.mod_lt _ hn⟩
  rw [Nat.div_lt_iff_lt_mul hn, Nat.div_lt_iff_lt_mul hk]
  exact hp

/-- `S` chunks of `ceil(T / S)` cover `T` (R204). -/
theorem le_ceilDiv_mul (T S : Nat) (h : 0 < S) : T ≤ S * ceilDiv T S := by
  unfold ceilDiv
  have := Nat.div_add_mod (T + (S - 1)) S
  have := Nat.mod_lt (T + (S - 1)) h
  omega

theorem ceilDiv_pos {T S : Nat} (h : 0 < S) (hT : 0 < T) : 0 < ceilDiv T S := by
  have := le_ceilDiv_mul T S h
  rcases Nat.eq_zero_or_pos (ceilDiv T S) with h0 | h0
  · rw [h0] at this; omega
  · exact h0

/-- Chunks that follow one another start in order. -/
theorem chunk_start_le {f : Nat → Chunk} (h : ∀ k, (f (k + 1)).start = (f k).start + (f k).len)
    {j k : Nat} (hjk : j ≤ k) : (f j).start ≤ (f k).start := by
  induction hjk with
  | refl => exact le_rfl
  | step _ ih => rw [h]; omega

/-- Chunks that follow one another and end at `N` lie below `N`. -/
theorem chunk_end_le {f : Nat → Chunk} (h : ∀ k, (f (k + 1)).start = (f k).start + (f k).len)
    {S N k : Nat} (hk : k < S) (he : (f (S - 1)).start + (f (S - 1)).len = N) :
    (f k).start + (f k).len ≤ N := by
  rw [← h, ← he, ← h]
  exact chunk_start_le h (by omega)

/-- A sum over chunks that follow one another is the sum over the whole range. -/
theorem sum_over_chunks {f : Nat → Chunk} (h : ∀ k, (f (k + 1)).start = (f k).start + (f k).len)
    (h0 : (f 0).start = 0) (g : Nat → Int) (S : Nat) :
    ∑ k ∈ Finset.range S, ∑ u ∈ Finset.range (f k).len, g ((f k).start + u) =
      ∑ p ∈ Finset.range (f S).start, g p := by
  induction S with
  | zero => simp [h0]
  | succ S ih => rw [Finset.sum_range_succ, ih, h, Finset.sum_range_add]

/-- A sum over a row-major array, row by row. -/
theorem sum_over_rows (f : Nat → Nat) (a b : Nat) :
    ∑ p ∈ Finset.range (a * b), f p = ∑ t ∈ Finset.range a, ∑ x ∈ Finset.range b, f (t * b + x) := by
  induction a with
  | zero => simp
  | succ a ih => rw [Nat.succ_mul, Finset.sum_range_add, ih, Finset.sum_range_succ]

/-- An entry of equally long lists joined (R208). -/
theorem flatten_getElem? {α : Type} (ls : List (List α)) (n : Nat) (h : ∀ l ∈ ls, l.length = n) (k u : Nat)
    (hu : u < n) : ls.flatten[k * n + u]? = (ls[k]?).bind (·[u]?) := by
  induction ls generalizing k with
  | nil => simp
  | cons l ls ih =>
    have hl := h l (by simp)
    cases k with
    | zero => simp [List.getElem?_append_left (show u < l.length by omega)]
    | succ k =>
      rw [List.flatten_cons, List.getElem?_append_right (by rw [Nat.succ_mul]; omega),
        show (k + 1) * n + u - l.length = k * n + u by rw [Nat.succ_mul]; omega]
      simpa using ih (fun l hl => h l (by simp [hl])) k

theorem flatten_length {α : Type} (ls : List (List α)) (n : Nat) (h : ∀ l ∈ ls, l.length = n) :
    ls.flatten.length = ls.length * n := by
  induction ls with
  | nil => simp
  | cons l ls ih =>
    rw [List.flatten_cons, List.length_append, ih fun l hl => h l (by simp [hl]), h l (by simp),
      List.length_cons, Nat.succ_mul]
    omega

/-- Entry `u` of a chunk (R26). -/
theorem chunkPairs_getElem? {w : Nat} (ps : List (OperandPair w)) (ch : Chunk) (u : Nat) :
    (chunkPairs ps ch)[u]? = if u < ch.len then ps[ch.start + u]? else none := by
  unfold chunkPairs
  split
  · rw [List.getElem?_take_of_lt ‹_›, List.getElem?_drop]
  · rw [List.getElem?_eq_none]; rw [List.length_take]; omega

theorem chunkPairs_length {w : Nat} (ps : List (OperandPair w)) (ch : Chunk)
    (h : ch.start + ch.len ≤ ps.length) : (chunkPairs ps ch).length = ch.len := by
  unfold chunkPairs; rw [List.length_take, List.length_drop]; omega

/-- Changing the listed entries one at a time, each once: every listed entry is changed once, no other
is. -/
theorem foldl_modify_getElem? {α : Type} (f : Nat → α → α) (order : List Nat) (l : List α)
    (hn : order.Nodup) (i : Nat) :
    (order.foldl (fun l k => l.modify k (f k)) l)[i]? =
      if i ∈ order then l[i]?.map (f i) else l[i]? := by
  induction order generalizing l with
  | nil => simp
  | cons k order ih =>
    rw [List.nodup_cons] at hn
    simp only [List.foldl_cons]
    rw [ih _ hn.2]
    by_cases hik : k = i
    · subst hik
      simp [hn.1]
    · simp [hik, Ne.symm hik]

/-- The cells an EXECUTE MATMUL writes (R212). -/
theorem mem_matmulWrites {m n : Nat} {acc : List Cell} {e : Nat × Cell} :
    e ∈ matmulWrites m n acc ↔ ∃ i < m, ∃ j < n, e = (i * n + j, acc.getD (i * n + j) 0) := by
  simp [matmulWrites, eq_comm]

/-- Their indices are exactly those below `m·n`. -/
theorem mem_matmulWrites_fst {m n : Nat} {acc : List Cell} (hn : 0 < n) {c : Nat} :
    c ∈ (matmulWrites m n acc).map Prod.fst ↔ c < m * n := by
  constructor
  · intro h
    obtain ⟨e, he, rfl⟩ := List.mem_map.1 h
    obtain ⟨i, hi, j, hj, rfl⟩ := mem_matmulWrites.1 he
    exact cell_lt hi hj
  · intro h
    refine List.mem_map.2 ⟨(c, acc.getD c 0), mem_matmulWrites.2 ⟨c / n, ?_, c % n, Nat.mod_lt _ hn, ?_⟩,
      rfl⟩
    · exact (Nat.div_lt_iff_lt_mul hn).2 h
    · rw [Nat.div_add_mod']

end Sys2Proof.Machine
end

