-- ==== Sys2Proof/Laws/Words.lean ====
section
/-!
SUPPORT. Encodings and the adder chain as numbers (00_scope.md R9 to R11; 40_adder_chain.md R102,
R103): what each helper of the operands and of the ripple adder computes, said once.
-/

namespace Sys2Proof.Machine

/-- `dec` is below `2^w` (R10). -/
theorem dec_lt {w : Nat} (v : Word w) : dec v < 2 ^ w := v.isLt

/-- `dec` tells values apart. -/
theorem dec_inj {w : Nat} {u v : Word w} (h : dec u = dec v) : u = v := BitVec.eq_of_toNat_eq h

/-- Encoding and decoding reduce modulo `2^w`, Euclidean (R11). -/
theorem dec_enc (w : Nat) (v : Int) : (dec (enc w v) : Int) = v % 2 ^ w := by
  have hp : (0 : Int) < 2 ^ w := by positivity
  simp only [dec, enc, BitVec.toNat_ofNat]
  push_cast
  rw [Int.toNat_of_nonneg (Int.emod_nonneg v (ne_of_gt hp)), Int.emod_emod_of_dvd _ (dvd_refl _)]

/-- `dec_enc` of a natural number. -/
theorem dec_enc_nat (w n : Nat) : dec (enc w (n : Int)) = n % 2 ^ w := by
  exact_mod_cast dec_enc w n

/-- Encoding sees an integer only modulo `2^w`. -/
theorem enc_emod (w : Nat) (v : Int) : enc w (v % 2 ^ w) = enc w v := by
  refine dec_inj (Int.ofNat.inj ?_)
  have h := dec_enc w (v % 2 ^ w)
  rw [Int.emod_emod_of_dvd _ (dvd_refl _)] at h
  exact h.trans (dec_enc w v).symm

/-- The bits of an encoded integer are those of its two's complement (41_alu.md R137). -/
theorem testBit_enc (w : Nat) (v : Int) {i : Nat} (h : i < w) : (dec (enc w v)).testBit i = v.testBit i := by
  have h1 := dec_enc w v
  have h4 : ((2 ^ w : Nat) : Int) = 2 ^ w := by push_cast; rfl
  cases v with
  | ofNat m =>
    have : dec (enc w (Int.ofNat m)) = m % 2 ^ w := Int.ofNat.inj h1
    rw [this, Nat.testBit_mod_two_pow]
    simp [h, Int.testBit]
  | negSucc m =>
    have hlt : m % 2 ^ w < 2 ^ w := Nat.mod_lt _ (by positivity)
    have h3 : ((m % 2 ^ w : Nat) : Int) = m % 2 ^ w := by push_cast; rfl
    have : dec (enc w (Int.negSucc m)) = 2 ^ w - (m % 2 ^ w + 1) := by
      rw [Int.negSucc_emod m (by positivity), ← h3, ← h4] at h1
      omega
    rw [this, Nat.testBit_two_pow_sub_succ hlt, Nat.testBit_mod_two_pow]
    simp [h, Int.testBit]

/-- The signed reading of a cell is the two's-complement one (R10). -/
theorem sint32_eq (c : Cell) : sint32 c = c.toInt := by
  rw [sint32, BitVec.toInt_eq_toNat_cond]
  have : (2 * c.toNat < 2 ^ 32) ↔ (c.toNat < 2 ^ 31) := by omega
  simp only [this]
  rfl

@[simp] theorem bitsOf_length {w : Nat} (v : Word w) : (bitsOf v).length = w := by simp [bitsOf]

/-- The number of a slice of bits. -/
theorem numberOf_slice (w v n : Nat) :
    numberOf ((List.range' n w).map v.testBit) = (v / 2 ^ n) % 2 ^ w := by
  induction w generalizing n with
  | zero => simp [numberOf, Nat.mod_one]
  | succ w ih =>
    simp only [List.range'_succ, List.map_cons, numberOf, ih]
    rw [Nat.testBit_eq_decide_div_mod_eq, Nat.pow_succ 2 w, Nat.mul_comm (2 ^ w) 2, Nat.mod_mul,
      Nat.pow_succ, ← Nat.div_div_eq_div_mul]
    congr 1
    rcases Nat.mod_two_eq_zero_or_one (v / 2 ^ n) with h | h <;> simp [h]

/-- The bits of a value stand for it (R9). -/
theorem numberOf_bitsOf {w : Nat} (v : Word w) : numberOf (bitsOf v) = v.toNat := by
  have h := numberOf_slice w v.toNat 0
  rw [Nat.pow_zero, Nat.div_one, Nat.mod_eq_of_lt v.isLt] at h
  have hf : v.toNat.testBit = v.getLsbD := by funext i; rfl
  simpa [bitsOf, List.range_eq_range', hf] using h

/-- A list of bits stands for a number below `2^length`. -/
theorem numberOf_lt (l : List Bool) : numberOf l < 2 ^ l.length := by
  induction l with
  | nil => simp [numberOf]
  | cons b l ih => simp only [numberOf, List.length_cons, Nat.pow_succ]; cases b <;> simp <;> omega

/-- A chain of stages adds: sum bits and carry-out together are the exact sum (R102). -/
theorem rippleChain_spec (as bs : List Bool) (c : Bool) (h : as.length = bs.length) :
    (rippleChain as bs c).1.length = as.length ∧
    numberOf (rippleChain as bs c).1 + 2 ^ as.length * (rippleChain as bs c).2.toNat =
      numberOf as + numberOf bs + c.toNat := by
  induction as generalizing bs c with
  | nil => cases bs <;> simp_all [rippleChain, numberOf]
  | cons a as ih =>
    cases bs with
    | nil => simp at h
    | cons b bs =>
      obtain ⟨h1, h2⟩ := ih bs (stage a b c).2 (by simpa using h)
      refine ⟨by simp [rippleChain, h1], ?_⟩
      have h3 : (stage a b c).1.toNat + 2 * (stage a b c).2.toNat = a.toNat + b.toNat + c.toNat := by
        cases a <;> cases b <;> cases c <;> rfl
      simp only [rippleChain, numberOf, List.length_cons, Nat.pow_succ]
      rw [show 2 ^ as.length * 2 * (rippleChain as bs (stage a b c).2).2.toNat =
        2 * (2 ^ as.length * (rippleChain as bs (stage a b c).2).2.toNat) by ring]
      omega

end Sys2Proof.Machine
end

