-- ==== Sys2Proof/Laws/Invariant.lean ====
section
/-!
SUPPORT. What the invariant gives the commands: the operands a workload needs, the shape of the partition
state, and that no cell outside global memory is reached (44_device.md R196, R205, R212, R216).
-/

namespace Sys2Proof.Machine

variable {w : Nat}

/-- EXECUTE's phases are among PARTITION's. -/
theorem Phase.hasWorkload_of_hasPartition {p : Phase} (h : p.hasPartition = true) :
    p.hasWorkload = true := by
  cases p <;> first | rfl | cases h

/-- Past phase EMPTY the operand store holds a workload. -/
theorem Device.workloadInv.holds {c : Config} {d : Device w} (h : d.workloadInv c)
    (hp : d.phase.hasWorkload = true) : holdsWorkload c.G d.operation d.store := by
  unfold Device.workloadInv at h
  split at h
  · rename_i h1; rw [h1] at hp; cases hp
  all_goals exact h

/-- The partition state, once partitioned, is what the operands determine. -/
theorem Device.partitionInv.partitionOf_eq {c : Config} {d : Device w} (h : d.partitionInv c)
    (hp : d.phase.hasPartition = true) :
    partitionOf c.S d.operation d.store = .ok (d.pairs, d.taskMap, d.chunks) := by
  unfold Device.partitionInv at h
  split at h
  · rename_i h1; rw [h1] at hp; cases hp
  · rename_i h1; rw [h1] at hp; cases hp
  all_goals exact h

theorem partitionOf_chunks_length {S : Nat} {op : Operation} {st : OperandStore w}
    {ps : List (OperandPair w)} {ts : List TaskCoord} {cs : List Chunk}
    (h : partitionOf S op st = .ok (ps, ts, cs)) : cs.length = S := by
  unfold partitionOf at h
  split at h <;> cases h <;> simp [dotSplit, matmulSplit]

/-- The chunk table has one row per SM (R26). -/
theorem Device.Inv.chunks_length {c : Config} {d : Device w} (h : d.Inv c) : d.chunks.length = c.S := by
  obtain ⟨-, -, -, h⟩ := h
  unfold Device.partitionInv at h
  split at h
  · simp [h.2.2, emptyChunks]
  · simp [h.2.2, emptyChunks]
  · exact partitionOf_chunks_length h
  · exact partitionOf_chunks_length h

/-- What LOAD stores is a workload of the operation it selects (R193 to R196). -/
theorem loadOperands_holds {G : Nat} {opA opB : Operand} {name : OpName} {op : Operation}
    {st : OperandStore w} (hw : (Command.load opA opB name).wellFormed = true)
    (h : loadOperands w G opA opB name = .ok (op, st)) : holdsWorkload G op st := by
  have hv : ∀ na nb da db st, da.length = na → db.length = nb →
      loadVectors w na nb da db = .ok st → holdsWorkload G .dot st := by
    intro na nb da db st ha hb h
    unfold loadVectors at h
    split at h
    · cases h
    split at h
    · cases h
    cases h
    simp only [holdsWorkload, encodeAll, List.length_map]
    omega
  simp only [Command.wellFormed, Bool.and_eq_true] at hw
  cases name with
  | other tag => cases h
  | dot =>
    cases opA <;> cases opB <;>
      simp only [loadOperands, loadDot, Except.map, Operand.wellFormed, beq_iff_eq] at h hw
    case vec.vec => split at h <;> cases h; exact hv _ _ _ _ _ hw.1 hw.2 ‹_›
    case mat.mat => split at h <;> cases h; exact hv _ _ _ _ _ hw.1 hw.2 ‹_›
    all_goals cases h
  | matmul =>
    cases opA <;> cases opB <;>
      simp only [loadOperands, loadMatmul, Except.map, Operand.wellFormed, beq_iff_eq] at h hw
    case mat.mat =>
      split at h <;> cases h
      rename_i he
      split at he
      · cases he
      split at he
      · cases he
      split at he
      · cases he
      cases he
      simp only [holdsWorkload, encodeAll, List.length_map]
      rename_i h1 h2 h3
      have h1 := not_not.1 h1
      subst h1
      omega
    all_goals cases h

/-- A workload can be partitioned. -/
theorem partitionOf_total {S G : Nat} {op : Operation} {st : OperandStore w} (h : holdsWorkload G op st) :
    ∃ ps ts cs, partitionOf S op st = .ok (ps, ts, cs) := by
  cases op <;> cases st <;> first | exact h.elim | exact ⟨_, _, _, rfl⟩

/-- A workload's results can be accumulated: every cell it needs exists (R196). -/
theorem Device.accumulateInto_total {c : Config} {d : Device w} (rs : List (Word w))
    (h : holdsWorkload c.G d.operation d.store) : ∃ m, d.accumulateInto c rs = .ok m := by
  cases hop : d.operation with
  | dot =>
    simp only [Device.accumulateInto, hop, memWrite, if_pos (show 0 < c.G from c.hG)]
    exact ⟨_, rfl⟩
  | matmul =>
    rw [hop] at h
    cases hst : d.store with
    | matrices m k n a b =>
      rw [hst] at h
      simp only [Device.accumulateInto, hop, hst]
      refine ⟨_, memWriteAll_eq_ok _ _ fun e he => ?_⟩
      obtain ⟨i, hi, j, hj, rfl⟩ := mem_matmulWrites.1 he
      exact (cell_lt hi hj).trans_le h.2.2.2.1
    | _ => rw [hst] at h; exact h.elim

/-- The output cell of a DOT workload. -/
theorem Device.outputCell_dot {w : Nat} {d : Device w} (hop : d.operation = .dot) (cell : Nat) :
    d.outputCell cell ↔ cell = 0 := by
  simp [Device.outputCell, hop]

/-- The output cells of a MATMUL workload. -/
theorem Device.outputCell_matmul {w : Nat} {d : Device w} {m k n : Nat} {a b : List (Word w)}
    (hop : d.operation = .matmul) (hst : d.store = .matrices m k n a b) (cell : Nat) :
    d.outputCell cell ↔ cell < m * n := by
  simp [Device.outputCell, hop, hst]

/-- What EXECUTE writes to global memory does not come from it (20_memory.md R51): over another memory `m`
it answers too, with the same values in the output cells and `m` elsewhere. -/
theorem Device.accumulateInto_gmem {w : Nat} {c : Config} {d : Device w} {rs : List (Word w)} {m₁ : Memory}
    (h : d.accumulateInto c rs = .ok m₁) (m : Memory) :
    ∃ m₂, Device.accumulateInto c { d with gmem := m } rs = .ok m₂ ∧ (m.wf → m₂.wf) ∧
      (d.gmem.wf → m.wf → ∀ cell, d.outputCell cell → m₂.read cell = m₁.read cell) ∧
      ∀ cell, ¬d.outputCell cell →
        m₂.read cell = m.read cell ∧ m₁.read cell = d.gmem.read cell := by
  unfold Device.accumulateInto at h ⊢
  simp only
  split at h
  · obtain ⟨hc, rfl⟩ := memWrite_eq_ok.1 h
    simp only [Device.outputCell_dot ‹_›]
    refine ⟨_, memWrite_eq_ok.2 ⟨hc, rfl⟩, Memory.write_wf _ _, ?_, fun cell hn => ?_⟩
    · rintro h₁ h₂ cell rfl
      rw [Memory.read_write_same _ _ h₁, Memory.read_write_same _ _ h₂]
    · exact ⟨Memory.read_write_other _ hn, Memory.read_write_other _ hn⟩
  · have hb := memWriteAll_ok_bound h
    rw [memWriteAll_eq_ok _ _ hb, Except.ok.injEq] at h
    subst h
    simp only [Device.outputCell_matmul ‹_› ‹_›]
    refine ⟨_, memWriteAll_eq_ok _ _ hb, Memory.foldl_write_wf _ _, fun h₁ h₂ cell hcell => ?_,
      fun cell hn => ?_⟩
    · have hval : ∀ {m n : Nat} {acc : List Cell}, ∀ e ∈ matmulWrites m n acc, e.2 = acc.getD e.1 0 :=
        fun e he => by obtain ⟨i, -, j, -, rfl⟩ := mem_matmulWrites.1 he; rfl
      have hmem := fun acc => (mem_matmulWrites_fst (acc := acc)
        (Nat.pos_of_mul_pos_left (Nat.zero_lt_of_lt hcell))).2 hcell
      rw [Memory.foldl_write_read (fun c => List.getD _ c 0) _ _ h₁ hval,
        Memory.foldl_write_read (fun c => List.getD _ c 0) _ _ h₂ hval, if_pos (hmem _),
        if_pos (hmem _)]
    · have hne : ∀ {m n : Nat} {acc}, ¬cell < m * n → ∀ e ∈ matmulWrites m n acc, e.1 ≠ cell := by
        rintro m n acc hn e he rfl
        obtain ⟨i, hi, j, hj, rfl⟩ := mem_matmulWrites.1 he
        exact hn (cell_lt hi hj)
      exact ⟨Memory.foldl_write_other _ _ (hne hn), Memory.foldl_write_other _ _ (hne hn)⟩
  · cases h
  · cases h

/-- The data of a DOT RECONSTRUCT (R215). -/
theorem Device.output_dot {c : Config} {d : Device w} (hop : d.operation = .dot) :
    d.output c.G = .ok (.scalar (d.gmem.read 0).toInt) := by
  simp only [Device.output, hop, memRead]
  rw [if_pos (show 0 < c.G from c.hG), ← sint32_eq]
  rfl

/-- The data of a MATMUL RECONSTRUCT (R216). -/
theorem Device.output_matmul {c : Config} {d : Device w} {m k n : Nat} {a b : List (Word w)}
    (hop : d.operation = .matmul) (hst : d.store = .matrices m k n a b) (hG : m * n ≤ c.G) :
    d.output c.G = .ok (.array ((List.range m).map fun i => (List.range n).map fun j =>
      (d.gmem.read (i * n + j)).toInt)) := by
  simp only [Device.output, hop, hst]
  rw [readRows_eq_ok _ _ _ fun i hi j hj => (cell_lt (List.mem_range.1 hi) hj).trans_le hG]
  simp only [sint32_eq]
  rfl

/-- A workload has an output. -/
theorem Device.output_total {c : Config} {d : Device w} (h : holdsWorkload c.G d.operation d.store) :
    ∃ data, d.output c.G = .ok data := by
  cases hop : d.operation with
  | dot => exact ⟨_, Device.output_dot hop⟩
  | matmul =>
    rw [hop] at h
    cases hst : d.store with
    | matrices m k n a b => rw [hst] at h; exact ⟨_, Device.output_matmul hop hst h.2.2.2.1⟩
    | _ => rw [hst] at h; exact h.elim

end Sys2Proof.Machine
end

