-- ==== Sys2Proof/Laws/PerInstr.lean ====
section
/-!
SUPPORT. Per-instruction laws, about instructions as syntax: one lemma per constructor.
-/

namespace Sys2Proof.Laws.OpcodeRoundTrip

/-- The code of `i`, presented in any form, decodes to `i`, and no other code does (30_encoding.md R72). -/
def Statement (i : Instr) : Prop :=
  decode (.bits (encode i)) = .op i ∧ decode (.number (encode i).toNat) = .op i ∧
    decodeTableWord 8 (encode i).toNat = some i ∧
    ∀ code : Code, decodeBits code = .op i → code = encode i

theorem add : Statement .add := by unfold Statement; decide
theorem sub : Statement .sub := by unfold Statement; decide
theorem and : Statement .and := by unfold Statement; decide
theorem or : Statement .or := by unfold Statement; decide
theorem xor : Statement .xor := by unfold Statement; decide
theorem mul : Statement .mul := by unfold Statement; decide
theorem div : Statement .div := by unfold Statement; decide
theorem nop : Statement .nop := by unfold Statement; decide

end Sys2Proof.Laws.OpcodeRoundTrip
end

