-- ==== Sys2Proof/Laws/Steps.lean ====
section
/-!
SUPPORT. What a step with a request pending can do, said once for all five kinds of request: later
proofs take `step_effect` apart and unfold no command again.
-/

namespace Sys2Proof.Machine

/-- The commands that can answer each status (60_exceptions.md R240, R242 to R245). -/
def Status.answers (e : Status) (cmd : Command) : Prop :=
  match e with
  | .success => True
  | .shapeError => ∃ opA opB name, cmd = .load opA opB name
  | .unsupportedOperationError =>
    (∃ opA opB name, cmd = .load opA opB name) ∨ ∃ code, cmd = .execute code
  | .encodingError => False
  | .sequenceError => cmd = .partition ∨ cmd = .reconstruct ∨ ∃ code, cmd = .execute code

/-- The next states of a step that takes `cmd` and leaves `rest` pending. -/
inductive StepEffect (s : State) (cmd : Command) (rest : List Request) (t : State) : Prop
  | load (op : Operation) (st : OperandStore s.cfg.W) (opA opB : Operand) (name : OpName)
      (hc : cmd = .load opA opB name)
      (hl : loadOperands s.cfg.W s.cfg.G opA opB name = .ok (op, st))
      (ht : t = { s with
        pending := rest
        dev := s.dev.loadWorkload s.cfg.S op st
        responses := s.responses ++ [.device .success none] })
  | partition (ps : List (OperandPair s.cfg.W)) (ts : List TaskCoord) (cs : List Chunk)
      (hc : cmd = .partition) (hp : s.dev.phase.hasWorkload = true)
      (hps : partitionOf s.cfg.S s.dev.operation s.dev.store = .ok (ps, ts, cs))
      (ht : t = { s with
        pending := rest
        dev := { s.dev with pairs := ps, taskMap := ts, chunks := cs, phase := .partitioned }
        responses := s.responses ++ [.device .success none] })
  | execute (m : Memory) (hc : cmd = .execute (encode .mul)) (hp : s.dev.phase.hasPartition = true)
      (hm : s.dev.accumulateInto s.cfg (resultStream (s.dev.dispatch s.cfg (encode .mul))) = .ok m)
      (ht : t = { s with
        pending := rest
        port := .device
        dev := { s.dev with sms := s.dev.dispatch s.cfg (encode .mul), gmem := m, phase := .executed }
        responses := s.responses ++ [.device .success none] })
  | reconstruct (data : Data) (hc : cmd = .reconstruct) (hp : s.dev.phase.hasWorkload = true)
      (hd : s.dev.output s.cfg.G = .ok data)
      (ht : t = { s with
        pending := rest
        responses := s.responses ++ [.device .success (some data)] })
  | alu (a b : Int) (form : CodeForm) (hc : cmd = .alu a b form)
      (ht : t = { s with
        pending := rest
        port := .direct a b
        responses := s.responses ++ [.alu (aluExec s.cfg.W (aluOp (decode form)) a b)] })
  | error (e : Status) (p : Port) (he : e ≠ .success) (hc : e.answers cmd)
      (hp : p = s.port ∨ p = .device ∧ ∃ code, cmd = .execute code)
      (ht : t = { s with
        pending := rest
        port := p
        dev := { s.dev with fault := s.dev.fault || e.setsFault }
        responses := s.responses ++ [.device e none] })

/-- A step that takes a request and answers has one of these effects. -/
theorem step_effect {s t : State} {cmd : Command} {rest : List Request} (hn : s.nextIs cmd rest)
    (h : step s = .next t) : StepEffect s cmd rest t := by
  rw [step_nextIs hn] at h
  cases cmd with
  | load opA opB name =>
    rcases deviceLoad_cases h with ⟨op, st, hl, rfl⟩ | ⟨e, hl, rfl⟩
    · exact .load op st _ _ _ rfl hl rfl
    · refine .error e s.port ?_ ?_ (.inl rfl) rfl
      · rcases loadOperands_error hl with rfl | rfl <;> simp
      · rcases loadOperands_error hl with rfl | rfl <;> simp [Status.answers]
  | partition =>
    rcases devicePartition_cases h with ⟨hp, d, hd, rfl⟩ | ⟨hp, rfl⟩
    · obtain ⟨ps, ts, cs, hps, rfl⟩ := Device.partition_eq_ok hd
      exact .partition ps ts cs rfl hp hps rfl
    · exact .error .sequenceError s.port (by simp) (by simp [Status.answers]) (.inl rfl) rfl
  | execute code =>
    simp only [runCommand, runExecute_eq] at h
    rcases deviceExecute_cases h with ⟨hp, rfl, d, hd, rfl⟩ | ⟨hp, hc, rfl⟩ | ⟨hp, rfl⟩
    · obtain ⟨m, hm, rfl⟩ := Device.execute_eq_ok hd
      exact .execute m rfl hp hm rfl
    · exact .error .unsupportedOperationError .device (by simp) (by simp [Status.answers])
        (.inr ⟨rfl, _, rfl⟩) rfl
    · exact .error .sequenceError .device (by simp) (by simp [Status.answers]) (.inr ⟨rfl, _, rfl⟩) rfl
  | reconstruct =>
    rcases deviceReconstruct_cases h with ⟨hp, d, hd, rfl⟩ | ⟨hp, rfl⟩
    · exact .reconstruct d rfl hp hd rfl
    · exact .error .sequenceError s.port (by simp) (by simp [Status.answers]) (.inl rfl) rfl
  | alu a b form =>
    simp only [runCommand, runAlu_eq] at h
    cases h
    exact .alu a b form rfl rfl

/-- Every step that answers is idle or takes the oldest request with one of these effects. -/
theorem step_idle_or_effect {s t : State} (h : step s = .next t) :
    (s.pending = [] ∧ t = s) ∨ ∃ cmd rest, s.nextIs cmd rest ∧ StepEffect s cmd rest t := by
  rcases step_cases h with h | ⟨⟨cmd, hw⟩, rest, hp, -⟩
  · exact .inl h
  · exact .inr ⟨cmd, rest, ⟨hw, hp⟩, step_effect ⟨hw, hp⟩ h⟩

/-- PARTITION in phase, given its partition. -/
theorem step_partition {s : State} {rest : List Request} {ps : List (OperandPair s.cfg.W)}
    {ts : List TaskCoord} {cs : List Chunk} (hn : s.nextIs .partition rest) (hp : s.dev.phase ≠ .empty)
    (h : partitionOf s.cfg.S s.dev.operation s.dev.store = .ok (ps, ts, cs)) :
    step s = .next { s with
      pending := rest
      dev := { s.dev with pairs := ps, taskMap := ts, chunks := cs, phase := .partitioned }
      responses := s.responses ++ [.device .success none] } := by
  rw [step_nextIs hn]
  refine (devicePartition_ok (s := { s with pending := rest })
    (d := { s.dev with pairs := ps, taskMap := ts, chunks := cs, phase := .partitioned }) ?_ ?_).trans rfl
  · change s.dev.phase.hasWorkload = true
    cases hph : s.dev.phase <;> simp_all [Phase.hasWorkload]
  · simp only [Device.partition, h]; rfl

/-- RECONSTRUCT in phase, given its data. -/
theorem step_reconstruct {s : State} {rest : List Request} {data : Data} (hn : s.nextIs .reconstruct rest)
    (hp : s.dev.phase ≠ .empty) (h : s.dev.output s.cfg.G = .ok data) :
    step s = .next { s with
      pending := rest
      responses := s.responses ++ [.device .success (some data)] } := by
  rw [step_nextIs hn]
  refine (deviceReconstruct_ok (s := { s with pending := rest }) ?_ h).trans rfl
  change s.dev.phase.hasWorkload = true
  cases hph : s.dev.phase <;> simp_all [Phase.hasWorkload]

/-- EXECUTE's step is `deviceExecute` with the port at the Device. -/
theorem step_execute {s : State} {code : Code} {rest : List Request} (hn : s.nextIs (.execute code) rest) :
    step s = deviceExecute code { s with pending := rest, port := .device } := by
  rw [step_nextIs hn]
  exact runExecute_eq _ _

end Sys2Proof.Machine
end

