-- ==== Sys2Proof/Tests/Slice0.lean ====
section
/-!
SUPPORT. Tests of the model: ill-formed terms, the words of the spec's encoding table, single steps from
the spec's own vectors and program traces (95_test_vectors.md), and one witness for the premises of every
obligation that has any. Every expected result is the spec's.
-/

namespace Sys2Proof.Tests

open Sys2Proof.Machine

/-! ### Helpers: small states -/

/-- Requests, in order; an ill-formed record makes none. -/
def ask (cs : List Command) : List Request :=
  cs.filterMap fun c => if h : c.wellFormed = true then some ⟨c, h⟩ else none

/-- A block of configuration `c` with the given state and requests pending. -/
def block (c : Config) (d : Device c.W) (cs : List Command) : State where
  cfg := c
  dev := d
  port := .direct 0 0
  pending := ask cs
  responses := []

/-- The configuration of program P1: `(S, WP, L, W, G) = (2, 1, 2, 8, 1)`. -/
abbrev cfg1 : Config := { W := 8, S := 2, WP := 1, L := 2, G := 1 }

/-- The configuration of program P2: `(2, 1, 2, 8, 4)`. -/
abbrev cfg2 : Config := { W := 8, S := 2, WP := 1, L := 2, G := 4 }

/-- P1, before step 1. -/
abbrev fresh1 : Device 8 := Device.reset cfg1

/-- P1, after step 1. -/
abbrev loaded1 : Device 8 :=
  { fresh1 with operation := .dot, store := .vectors [1, 2, 3] [4, 5, 6], phase := .loaded }

/-- P1, after step 2. -/
abbrev partitioned1 : Device 8 :=
  { loaded1 with
    pairs := [⟨1, 4⟩, ⟨2, 5⟩, ⟨3, 6⟩]
    taskMap := [.flat 0, .flat 1, .flat 2]
    chunks := [⟨0, 2⟩, ⟨2, 1⟩]
    phase := .partitioned }

/-- P1, the arena after step 3. -/
abbrev arena1 : List (SM 8) :=
  [⟨[⟨[⟨1, 4, 4⟩, ⟨2, 5, 10⟩]⟩], [[4, 10]]⟩, ⟨[⟨[⟨3, 6, 18⟩, ⟨0, 0, 0⟩]⟩], [[18, 0]]⟩]

/-- P1, after step 3. -/
abbrev executed1 : Device 8 := { partitioned1 with sms := arena1, gmem := [(0, 32)], phase := .executed }

/-- P2, before step 1. -/
abbrev fresh2 : Device 8 := Device.reset cfg2

/-- P2, after step 1. -/
abbrev loaded2 : Device 8 :=
  { fresh2 with
    operation := .matmul
    store := .matrices 2 2 2 [1, 2, 3, 4] [5, 6, 7, 8]
    phase := .loaded }

/-- P2, after step 2 (DV-P16). -/
abbrev partitioned2 : Device 8 :=
  { loaded2 with
    pairs := [⟨1, 5⟩, ⟨2, 7⟩, ⟨1, 6⟩, ⟨2, 8⟩, ⟨3, 5⟩, ⟨4, 7⟩, ⟨3, 6⟩, ⟨4, 8⟩]
    taskMap := [.cell 0 0 0, .cell 0 0 1, .cell 0 1 0, .cell 0 1 1,
      .cell 1 0 0, .cell 1 0 1, .cell 1 1 0, .cell 1 1 1]
    chunks := [⟨0, 4⟩, ⟨4, 4⟩]
    phase := .partitioned }

/-- P2, the arena after step 3. -/
abbrev arena2 : List (SM 8) :=
  [⟨[⟨[⟨1, 5, 5⟩, ⟨2, 7, 14⟩]⟩], [[5, 14]]⟩, ⟨[⟨[⟨3, 5, 15⟩, ⟨4, 7, 28⟩]⟩], [[15, 28]]⟩]

/-- P2, after step 3: `gmem = [19, 0, 43, 0]`. -/
abbrev executed2 : Device 8 :=
  { partitioned2 with sms := arena2, gmem := [(0, 19), (2, 43)], phase := .executed }

/-- The responses of an answer, if it is a next state. -/
def said : Answer → Option (List Response)
  | .next t => some t.responses
  | _ => none

/-- The block's state after an answer is `d`. -/
def left (c : Config) (d : Device c.W) : Answer → Bool
  | .next t => if h : t.cfg = c then decide (h ▸ t.dev = d) else false
  | _ => false

/-- The fault bit after an answer. -/
def faulted : Answer → Option Bool
  | .next t => some t.dev.fault
  | _ => none

/-- The answer of a fresh block to a direct ALU use (30_encoding.md R82). -/
def aluSays (i : Instr) (a b : Int) : Option (List Response) :=
  said (step (block cfg1 fresh1 [assembleAlu i a b]))

/-- P5, after step 2: a DOT workload partitioned over P2's global memory. -/
abbrev stale : Device 8 :=
  { executed2 with
    operation := .dot
    store := .vectors [2, 3] [4, 5]
    pairs := [⟨2, 4⟩, ⟨3, 5⟩]
    taskMap := [.flat 0, .flat 1]
    chunks := [⟨0, 1⟩, ⟨1, 1⟩]
    phase := .partitioned }

/-- The configuration of program P6: `(1, 1, 2, 32, 1)`. -/
abbrev cfg6 : Config := { W := 32, S := 1, WP := 1, L := 2, G := 1 }

/-- P6, after step 2. -/
abbrev partitioned6 : Device 32 :=
  { Device.reset cfg6 with
    operation := .dot
    store := .vectors [65536, 65536] [32768, 32768]
    pairs := [⟨65536, 32768⟩, ⟨65536, 32768⟩]
    taskMap := [.flat 0, .flat 1]
    chunks := [⟨0, 2⟩]
    phase := .partitioned }

/-! ### Ill-formed terms, one for each check -/

theorem test_config_in_bounds : (Config.build? 8 2 1 2 4).isSome = true := by decide
theorem test_config_needs_a_width : Config.build? 0 2 1 2 4 = none := by decide
theorem test_config_needs_an_sm : Config.build? 8 0 1 2 4 = none := by decide
theorem test_config_needs_a_warp : Config.build? 8 2 0 2 4 = none := by decide
theorem test_config_needs_a_lane : Config.build? 8 2 1 0 4 = none := by decide
theorem test_config_needs_a_cell : Config.build? 8 2 1 2 0 = none := by decide
theorem test_vec_has_its_length : (Operand.vec 2 [1]).wellFormed = false := by decide
theorem test_mat_has_its_size : (Operand.mat 2 2 [1, 2, 3]).wellFormed = false := by decide
theorem test_number_below_eight : (CodeForm.number 8).wellFormed = false := by decide
theorem test_number_not_negative : (CodeForm.number (-1)).wellFormed = false := by decide
theorem test_text_has_three_digits : (CodeForm.text ['1', '0', '1', '0']).wellFormed = false := by decide
theorem test_text_has_binary_digits : (CodeForm.text ['1', '0', '2']).wellFormed = false := by decide
theorem test_load_checks_operand_a :
    (Command.load (.vec 2 [1]) (.vec 1 [1]) .dot).wellFormed = false := by decide
theorem test_load_checks_operand_b :
    (Command.load (.vec 1 [1]) (.vec 2 [1]) .dot).wellFormed = false := by decide

/-! ### Decoding: the words of R72, written out (DV-D) -/

theorem test_decode_add : decodeBits 0b000#3 = .op .add ∧ decodeTableWord 8 0 = some .add := by decide
theorem test_decode_sub : decodeBits 0b001#3 = .op .sub ∧ decodeTableWord 8 1 = some .sub := by decide
theorem test_decode_and : decodeBits 0b010#3 = .op .and ∧ decodeTableWord 8 2 = some .and := by decide
theorem test_decode_or : decodeBits 0b011#3 = .op .or ∧ decodeTableWord 8 3 = some .or := by decide
theorem test_decode_xor : decodeBits 0b100#3 = .op .xor ∧ decodeTableWord 8 4 = some .xor := by decide
theorem test_decode_mul : decodeBits 0b101#3 = .op .mul ∧ decodeTableWord 8 5 = some .mul := by decide
theorem test_decode_div : decodeBits 0b110#3 = .op .div ∧ decodeTableWord 8 6 = some .div := by decide
theorem test_decode_nop : decodeBits 0b111#3 = .op .nop ∧ decodeTableWord 8 7 = some .nop := by decide
theorem test_decode_text : decode (.text ['1', '1', '0']) = .op .div := by decide
theorem test_decode_malformed :
    decode (.text ['1', '0', '1', '0']) = .invalid ∧ decode (.text []) = .invalid ∧
      decode (.text ['1', '0', '2']) = .invalid ∧ decode (.number 8) = .invalid := by decide

/-! ### Instructions at a direct ALU port: rows of DV-U -/

/-- DV-U1, DV-U14. -/
theorem test_add : aluSays .add 200 100 = some [.alu 44] ∧ aluSays .add (-1) 3 = some [.alu 2] := by decide
/-- DV-U3, DV-U14. -/
theorem test_sub : aluSays .sub 3 5 = some [.alu 254] ∧ aluSays .sub (-1) 3 = some [.alu 252] := by decide
/-- DV-U1, DV-U14. -/
theorem test_and : aluSays .and 200 100 = some [.alu 64] ∧ aluSays .and (-1) 3 = some [.alu 3] := by decide
/-- DV-U1, DV-U7. -/
theorem test_or : aluSays .or 200 100 = some [.alu 236] ∧ aluSays .or 100 7 = some [.alu 103] := by decide
/-- DV-U1, DV-U14. -/
theorem test_xor : aluSays .xor 200 100 = some [.alu 172] ∧ aluSays .xor (-1) 3 = some [.alu 252] := by
  decide
/-- DV-U1, DV-U14. -/
theorem test_mul : aluSays .mul 200 100 = some [.alu 32] ∧ aluSays .mul (-1) 3 = some [.alu 253] := by decide
/-- DV-U14, DV-U8 (a zero divisor). -/
theorem test_div : aluSays .div (-1) 3 = some [.alu 85] ∧ aluSays .div 7 0 = some [.alu 0] := by decide
/-- DV-U1, DV-U14. -/
theorem test_nop : aluSays .nop 200 100 = some [.alu 0] ∧ aluSays .nop (-1) 3 = some [.alu 0] := by decide
/-- R134, DV-D: a malformed code. -/
theorem test_invalid :
    said (step (block cfg1 fresh1 [.alu 200 100 (.text ['1', '0', '1', '0'])])) = some [.alu 0] := by decide
/-- A word is presented at the port in place. -/
theorem test_fetch_word :
    said (step ({ block cfg1 fresh1 [] with port := .direct 200 100 }.withFetchWord 8 0b110)) =
      some [.alu 2] := by decide

/-! ### Adder, warp, SM, partition, memory -/

/-- DV-A2, DV-A3, DV-A4. -/
theorem test_stage :
    stage true true false = (false, true) ∧ stage true true true = (true, true) ∧
      stage false true true = (false, true) := by decide
/-- DV-A5, DV-A6, DV-A8. -/
theorem test_ripple :
    rippleAdd (200 : Word 8) 100 = (44, true) ∧ rippleAdd (255 : Word 8) 1 = (0, true) ∧
      rippleAdd (170 : Word 8) 85 = (255, false) := by decide
/-- DV-A14. -/
theorem test_twos : twos (0 : Word 8) = 0 ∧ twos (5 : Word 8) = 251 ∧ twos (128 : Word 8) = 128 := by decide
/-- DV-W3, DV-W4: one code for every lane. -/
theorem test_warp :
    let wp := Warp.loadWork ⟨List.replicate 3 (Lane.reset 8)⟩ [⟨200, 100⟩, ⟨3, 5⟩, ⟨7, 0⟩]
    (wp.run 0b110#3).gatherResults = [2, 0, 0] ∧ (wp.run 0b000#3).gatherResults = [44, 8, 7] := by decide
/-- DV-S1 (truncation), DV-S2 (padding). -/
theorem test_fit :
    fit 2 [⟨1, 4⟩, ⟨2, 5⟩, ⟨9, 9⟩] = ([⟨1, 4⟩, ⟨2, 5⟩] : List (OperandPair 8)) ∧
      fit 2 [⟨3, 6⟩] = ([⟨3, 6⟩, ⟨0, 0⟩] : List (OperandPair 8)) := by decide
/-- DV-S4: the local memory of two warps of two lanes. -/
theorem test_sm_round :
    let c : Config := { W := 8, S := 1, WP := 2, L := 2, G := 1 }
    ((SM.reset c).round c 0b101#3 [⟨1, 5⟩, ⟨2, 7⟩, ⟨1, 6⟩, ⟨2, 8⟩]).localMem = [[5, 14], [6, 16]] := by
  decide
/-- DV-P2. -/
theorem test_dot_split : dotSplit 10 4 = [⟨0, 3⟩, ⟨3, 3⟩, ⟨6, 2⟩, ⟨8, 2⟩] := by decide
/-- DV-P10 (an empty last chunk). -/
theorem test_matmul_split :
    matmulSplit 12 5 = [⟨0, 3⟩, ⟨3, 3⟩, ⟨6, 3⟩, ⟨9, 3⟩, ⟨12, 0⟩] := by decide
/-- R52: a cell that is written with 0 is unlisted again. -/
theorem test_memory :
    Memory.write [(0, 19), (2, 43)] 0 0 = [(2, 43)] ∧ Memory.read [(0, 19), (2, 43)] 2 = 43 ∧
      Memory.read [(0, 19), (2, 43)] 1 = 0 := by decide
/-- R50: a cell at `G` does not exist. -/
theorem test_cell_out_of_range : memRead 4 [] 4 = .error (.cellOutOfRange 4) := by decide
/-- DV-T12. -/
theorem test_sint32 : sint32 0x80000000 = -2147483648 ∧ sint32 0x7fffffff = 2147483647 := by decide

/-! ### Device commands: single steps of the programs, and DV-E -/

/-- P1, step 1. -/
theorem test_load :
    left cfg1 loaded1 (step (block cfg1 fresh1 [.load (.vec 3 [1, 2, 3]) (.vec 3 [4, 5, 6]) .dot])) = true := by
  decide
/-- P2, step 1. -/
theorem test_load_matmul :
    left cfg2 loaded2 (step (block cfg2 fresh2
      [.load (.mat 2 2 [1, 2, 3, 4]) (.mat 2 2 [5, 6, 7, 8]) .matmul])) = true := by decide
/-- P1, step 2. -/
theorem test_partition : left cfg1 partitioned1 (step (block cfg1 loaded1 [.partition])) = true := by decide
/-- P2, step 2. -/
theorem test_partition_matmul : left cfg2 partitioned2 (step (block cfg2 loaded2 [.partition])) = true := by
  decide
/-- P1, step 3. -/
theorem test_execute : left cfg1 executed1 (step (block cfg1 partitioned1 [.execute 0b101#3])) = true := by
  decide
/-- P2, step 3 (truncated). -/
theorem test_execute_matmul :
    left cfg2 executed2 (step (block cfg2 partitioned2 [.execute 0b101#3])) = true := by decide
/-- P5, step 5: cell 0 is replaced, the others stay. -/
theorem test_execute_replaces :
    left cfg2 { stale with
      sms := [⟨[⟨[⟨2, 4, 8⟩, ⟨0, 0, 0⟩]⟩], [[8, 0]]⟩, ⟨[⟨[⟨3, 5, 15⟩, ⟨0, 0, 0⟩]⟩], [[15, 0]]⟩]
      gmem := [(0, 23), (2, 43)]
      phase := .executed } (step (block cfg2 stale [.execute 0b101#3])) = true := by decide
/-- P6, step 3: the sum wraps to 0. -/
theorem test_execute_wraps :
    left cfg6 { partitioned6 with
      sms := [⟨[⟨[⟨65536, 32768, 2147483648⟩, ⟨65536, 32768, 2147483648⟩]⟩],
        [[2147483648, 2147483648]]⟩]
      gmem := []
      phase := .executed } (step (block cfg6 partitioned6 [.execute 0b101#3])) = true := by decide
/-- P1, step 4, and P4, step 3 (before EXECUTE). -/
theorem test_reconstruct :
    said (step (block cfg1 executed1 [.reconstruct])) = some [.device .success (some (.scalar 32))] ∧
      said (step (block cfg1 loaded1 [.reconstruct])) = some [.device .success (some (.scalar 0))] := by
  decide
/-- P2, step 4, and P5, step 3 (a stale cell). -/
theorem test_reconstruct_matmul :
    said (step (block cfg2 executed2 [.reconstruct])) =
        some [.device .success (some (.array [[19, 0], [43, 0]]))] ∧
      said (step (block cfg2 stale [.reconstruct])) = some [.device .success (some (.scalar 19))] := by
  decide
/-- DV-E1, DV-E2, DV-E4, DV-E5: the refused DOT and MATMUL operands. -/
theorem test_shape_errors :
    let answer := fun opA opB name => said (step (block cfg1 fresh1 [.load opA opB name]))
    answer (.vec 3 [1, 2, 3]) (.vec 2 [4, 5]) .dot = some [.device .shapeError none] ∧
      answer (.vec 4 [1, 2, 3, 4]) (.mat 2 2 [1, 2, 3, 4]) .dot = some [.device .shapeError none] ∧
      answer (.vec 2 [1, 2]) (.mat 2 1 [3, 4]) .matmul = some [.device .shapeError none] ∧
      answer (.vec 0 []) (.vec 0 []) .dot = some [.device .shapeError none] := by decide
/-- DV-E6. -/
theorem test_output_must_fit :
    let c : Config := { W := 8, S := 2, WP := 1, L := 2, G := 3 }
    said (step (block c (Device.reset c)
      [.load (.mat 2 2 [1, 2, 3, 4]) (.mat 2 2 [1, 2, 3, 4]) .matmul])) =
      some [.device .shapeError none] := by decide
/-- DV-E7: the name is checked first. -/
theorem test_name_before_shape :
    said (step (block cfg1 fresh1 [.load (.vec 3 [1, 2, 3]) (.vec 2 [4, 5]) (.other "CONV")])) =
      some [.device .unsupportedOperationError none] := by decide
/-- DV-E8, DV-E9. -/
theorem test_sequence_errors :
    said (step (block cfg1 fresh1 [.partition])) = some [.device .sequenceError none] ∧
      faulted (step (block cfg1 fresh1 [.partition])) = some true ∧
      said (step (block cfg1 fresh1 [.reconstruct])) = some [.device .sequenceError none] := by decide
/-- DV-E11: sequence before opcode. -/
theorem test_sequence_before_opcode :
    left cfg1 { loaded1 with fault := true } (step (block cfg1 loaded1 [.execute 0b000#3])) = true ∧
      said (step (block cfg1 loaded1 [.execute 0b000#3])) = some [.device .sequenceError none] := by decide
/-- DV-E12, DV-E13. -/
theorem test_only_mul :
    left cfg1 partitioned1 (step (block cfg1 partitioned1 [.execute 0b000#3])) = true ∧
      said (step (block cfg1 partitioned1 [.execute 0b110#3])) =
        some [.device .unsupportedOperationError none] := by decide
/-- DV-E14: LOAD keeps global memory. -/
theorem test_load_keeps_memory :
    left cfg1 { loaded1 with sms := arena1, gmem := [(0, 32)] }
      (step (block cfg1 executed1 [.load (.vec 3 [1, 2, 3]) (.vec 3 [4, 5, 6]) .dot])) = true := by decide

/-! ### Witnesses: for every obligation with premises, a state and operands that meet them all -/

theorem block_nextIs (c : Config) (d : Device c.W) (cmd : Command) (rest : List Command)
    (h : cmd.wellFormed = true) : (block c d (cmd :: rest)).nextIs cmd (ask rest) :=
  ⟨h, by simp [block, ask, h]⟩

/-- The state a Device instruction runs in: as `block`, with the port at the Device. -/
def atDevice (c : Config) (d : Device c.W) : State := { block c d [] with port := .device }

theorem inv_fresh1 : fresh1.Inv cfg1 :=
  ⟨⟨by decide, by decide⟩, ⟨rfl, by unfold SM.shaped; decide⟩, rfl, rfl, rfl, rfl⟩
theorem inv_loaded1 : loaded1.Inv cfg1 :=
  ⟨⟨by decide, by decide⟩, ⟨rfl, by unfold SM.shaped; decide⟩, ⟨rfl, by decide⟩, rfl, rfl, rfl⟩
theorem inv_partitioned1 : partitioned1.Inv cfg1 :=
  ⟨⟨by decide, by decide⟩, ⟨rfl, by unfold SM.shaped; decide⟩, ⟨rfl, by decide⟩, rfl⟩
theorem inv_executed1 : executed1.Inv cfg1 :=
  ⟨⟨by decide, by decide⟩, ⟨rfl, by unfold SM.shaped; decide⟩, ⟨rfl, by decide⟩, rfl⟩
theorem inv_fresh2 : fresh2.Inv cfg2 :=
  ⟨⟨by decide, by decide⟩, ⟨rfl, by unfold SM.shaped; decide⟩, rfl, rfl, rfl, rfl⟩
theorem inv_partitioned2 : partitioned2.Inv cfg2 :=
  ⟨⟨by decide, by decide⟩, ⟨rfl, by unfold SM.shaped; decide⟩,
    ⟨by decide, by decide, by decide, by decide, rfl, rfl⟩, rfl⟩
theorem inv_executed2 : executed2.Inv cfg2 :=
  ⟨⟨by decide, by decide⟩, ⟨rfl, by unfold SM.shaped; decide⟩,
    ⟨by decide, by decide, by decide, by decide, rfl, rfl⟩, rfl⟩
theorem inv_stale : stale.Inv cfg2 :=
  ⟨⟨by decide, by decide⟩, ⟨rfl, by unfold SM.shaped; decide⟩, ⟨rfl, by decide⟩, rfl⟩

theorem witness_MalformedCodesAreInvalidAndGiveZero :
    (block cfg1 fresh1 [.alu 200 100 (.text ['1', '0'])]).nextIs (.alu 200 100 (.text ['1', '0'])) [] ∧
      decode (.text ['1', '0']) = .invalid :=
  ⟨block_nextIs _ _ _ [] rfl, by decide⟩

theorem witness_StepRunsTheDecodedInstruction :
    ((block cfg1 fresh1 [assembleAlu .div 7 0]).nextIs (.alu 7 0 (.bits 0b110#3)) [] ∧
        decode (.bits 0b110#3) = .op .div) ∧
      ((block cfg1 partitioned1 [.execute 0b101#3]).nextIs (.execute 0b101#3) [] ∧
        decodeBits 0b101#3 = .op .mul) ∧
      decodeTableWord 8 7 = some .nop :=
  ⟨⟨block_nextIs _ _ _ [] rfl, by decide⟩, ⟨block_nextIs _ _ _ [] rfl, by decide⟩, by decide⟩

/-- For AddAnswersTheSumModuloTwoToTheWidth, SubAnswersTheDifferenceModuloTwoToTheWidth,
AndAnswersTheBitwiseConjunction, OrAnswersTheBitwiseDisjunction, XorAnswersTheBitwiseDifference,
MulAnswersTheProductModuloTwoToTheWidth, DivAnswersTheUnsignedQuotientOrZero (a divisor that is 0 and one
that is not), NopAnswersZero and EveryAluResultIsAnUnsignedWordOfTheReducedOperands: the port is a direct
one, and bit 7 is the top bit of the word. -/
theorem witness_direct_port :
    ({ block cfg1 fresh1 [] with port := .direct (-1) 0 } : State).port = .direct (-1) 0 ∧
      ({ block cfg1 executed1 [] with port := .direct 200 100 } : State).port = .direct 200 100 ∧ 7 < cfg1.W :=
  ⟨rfl, rfl, by decide⟩

/-- The last lane of the last warp; the SM is also RoundComputesTheSmFunction's. -/
theorem witness_RoundLeavesEachLaneItsPairAndResult :
    (⟨[⟨[⟨1, 4, 4⟩, ⟨2, 5, 10⟩]⟩], [[4, 10]]⟩ : SM 8).shaped cfg1 ∧ 0 < cfg1.WP ∧ 1 < cfg1.L :=
  ⟨by unfold SM.shaped; decide, by decide, by decide⟩

theorem witness_LaneOrderIsNotObservable :
    [1, 0].Perm (List.range (⟨[⟨1, 4, 4⟩, ⟨2, 5, 10⟩]⟩ : Warp 8).lanes.length) :=
  by decide

theorem witness_WarpOrderIsNotObservable :
    let sm : SM 8 := ⟨[⟨[⟨1, 4, 0⟩]⟩, ⟨[⟨2, 5, 0⟩]⟩], [[0], [0]]⟩
    sm.localMem.length = sm.warps.length ∧ [1, 0].Perm (List.range sm.warps.length) :=
  ⟨rfl, by decide⟩

theorem witness_SmOrderIsNotObservable :
    partitioned1.chunks.length = partitioned1.sms.length ∧ [1, 0].Perm (List.range partitioned1.sms.length) :=
  ⟨rfl, by decide⟩

theorem witness_ExecuteRefusesOutOfPhaseThenEveryCodeButMul :
    ((atDevice cfg1 fresh1).port = .device ∧ fresh1.phase = .empty ∧ loaded1.phase = .loaded) ∧
      ((atDevice cfg1 partitioned1).port = .device ∧ Instr.add ≠ .mul ∧
        partitioned1.phase = .partitioned ∧ executed1.phase = .executed) :=
  ⟨⟨rfl, rfl, rfl⟩, rfl, by decide, rfl, rfl⟩

/-- Chunk 1 is `(2, 1)`: its place 0 holds a pair, its place 1 is padding. -/
theorem witness_ResultStreamHoldsTheProductsOfEachChunk :
    shapedArena cfg1 partitioned1.sms ∧ partitioned1.chunks.length = cfg1.S ∧
      (∀ ch ∈ partitioned1.chunks, ch.start + ch.len ≤ partitioned1.pairs.length) ∧
      1 < cfg1.S ∧ 0 < min 1 cfg1.CAP ∧ 1 < cfg1.CAP ∧ ¬1 < min 1 cfg1.CAP :=
  ⟨⟨rfl, by unfold SM.shaped; decide⟩, rfl, by decide, by decide, by decide, by decide, by decide⟩

theorem witness_ExecuteDotWritesTheSumToCellZero :
    (atDevice cfg1 partitioned1).Inv ∧ (atDevice cfg1 partitioned1).port = .device ∧
      partitioned1.phase = .partitioned ∧ partitioned1.operation = .dot :=
  ⟨inv_partitioned1, rfl, rfl, rfl⟩

/-- P2: of the 8 canonical indices over 2 SMs, index 5 is real and index 6 is dropped. -/
theorem witness_RealIndicesAreThoseBelowTheCapacity :
    0 < 2 ∧ 5 < 8 ∧ 5 % ceilDiv 8 2 < 2 ∧ ¬6 % ceilDiv 8 2 < 2 :=
  by decide

theorem witness_MatmulAccumulatorsSumTheRealResults :
    (∀ task ∈ partitioned2.taskMap, ∃ i j x, task = .cell i j x ∧ i < 2 ∧ j < 2) ∧ 1 < 2 :=
  by
  refine ⟨fun task h => ?_, by decide⟩
  fin_cases h <;> exact ⟨_, _, _, rfl, by decide, by decide⟩

theorem witness_ExecuteMatmulWritesEveryOutputCell :
    (atDevice cfg2 partitioned2).Inv ∧ (atDevice cfg2 partitioned2).port = .device ∧
      partitioned2.phase = .partitioned ∧ partitioned2.operation = .matmul ∧
      partitioned2.store = .matrices 2 2 2 [1, 2, 3, 4] [5, 6, 7, 8] :=
  ⟨inv_partitioned2, rfl, rfl, rfl, rfl⟩

/-- Another arena than the one in place. -/
theorem witness_ExecuteDoesNotReadTheStaleArena :
    (atDevice cfg1 partitioned1).Inv ∧ shapedArena cfg1 arena1 ∧ (atDevice cfg1 partitioned1).port = .device ∧
      partitioned1.phase = .partitioned ∧ partitioned1.sms ≠ arena1 :=
  ⟨inv_partitioned1, ⟨rfl, by unfold SM.shaped; decide⟩, rfl, rfl, by decide⟩

theorem witness_NoStepLeaksTheStaleArena :
    (block cfg1 partitioned1 [.execute 0b101#3]).Inv ∧ shapedArena cfg1 arena1 ∧
      ∃ t, step (block cfg1 partitioned1 [.execute 0b101#3]) = .next t :=
  ⟨inv_partitioned1, ⟨rfl, by unfold SM.shaped; decide⟩, _, rfl⟩

theorem witness_RepeatedExecuteRewritesTheSameValues :
    (atDevice cfg1 partitioned1).Inv ∧ (atDevice cfg1 partitioned1).port = .device ∧
      partitioned1.phase = .partitioned ∧ ∃ t, exec .mul (atDevice cfg1 partitioned1) = .next t :=
  ⟨inv_partitioned1, rfl, rfl, _, rfl⟩

theorem witness_LoadDotStoresTheEncodedOperands :
    (block cfg1 executed1 [.load (.vec 2 [-1, 2]) (.vec 2 [3, 4]) .dot]).nextIs
        (.load (.vec 2 [-1, 2]) (.vec 2 [3, 4]) .dot) [] ∧
      (block cfg1 fresh1 [.load (.mat 1 2 [-1, 2]) (.mat 2 1 [3, 4]) .dot]).nextIs
        (.load (.mat 1 2 [-1, 2]) (.mat 2 1 [3, 4]) .dot) [] ∧
      [(-1 : Int), 2].length = [(3 : Int), 4].length ∧ 0 < [(-1 : Int), 2].length :=
  ⟨block_nextIs _ _ _ [] rfl, block_nextIs _ _ _ [] rfl, rfl, by decide⟩

/-- The output fills global memory exactly. -/
theorem witness_LoadMatmulStoresTheEncodedOperands :
    (block cfg2 fresh2 [.load (.mat 2 1 [1, 2]) (.mat 1 2 [3, 4]) .matmul]).nextIs
        (.load (.mat 2 1 [1, 2]) (.mat 1 2 [3, 4]) .matmul) [] ∧ 0 < 2 ∧ 0 < 1 ∧ 2 * 2 ≤ cfg2.G :=
  ⟨block_nextIs _ _ _ [] rfl, by decide, by decide, by decide⟩

/-- One load for each cause and each side of it; the last is one cell too many. -/
theorem witness_LoadRaisesShapeErrorForEachCause :
    let asks := fun (opA opB : Operand) (name : OpName) =>
      (block cfg2 fresh2 [.load opA opB name]).nextIs (.load opA opB name) []
    (asks (.vec 1 [1]) (.vec 2 [1, 2]) .dot ∧ 1 ≠ 2) ∧
      (asks (.mat 1 1 [1]) (.mat 1 2 [1, 2]) .dot ∧ 1 * 1 ≠ 1 * 2) ∧
      asks (.vec 1 [1]) (.mat 1 1 [1]) .dot ∧ asks (.mat 1 1 [1]) (.vec 1 [1]) .dot ∧
      asks (.vec 1 [1]) (.mat 1 1 [1]) .matmul ∧ asks (.mat 1 1 [1]) (.vec 1 [1]) .matmul ∧
      (asks (.mat 1 2 [1, 2]) (.mat 1 1 [1]) .matmul ∧ 2 ≠ 1) ∧
      asks (.vec 0 []) (.vec 0 []) .dot ∧ (asks (.mat 0 3 []) (.mat 2 0 []) .dot ∧ 0 * 3 = 0 ∧ 2 * 0 = 0) ∧
      asks (.mat 0 1 []) (.mat 1 1 [1]) .matmul ∧ asks (.mat 1 0 []) (.mat 0 1 []) .matmul ∧
      asks (.mat 1 1 [1]) (.mat 1 0 []) .matmul ∧
      (asks (.mat 5 1 [1, 2, 3, 4, 5]) (.mat 1 1 [1]) .matmul ∧ cfg2.G < 5 * 1) :=
  ⟨⟨block_nextIs _ _ _ [] rfl, by decide⟩, ⟨block_nextIs _ _ _ [] rfl, by decide⟩,
    block_nextIs _ _ _ [] rfl, block_nextIs _ _ _ [] rfl, block_nextIs _ _ _ [] rfl,
    block_nextIs _ _ _ [] rfl, ⟨block_nextIs _ _ _ [] rfl, by decide⟩, block_nextIs _ _ _ [] rfl,
    ⟨block_nextIs _ _ _ [] rfl, by decide, by decide⟩, block_nextIs _ _ _ [] rfl,
    block_nextIs _ _ _ [] rfl, block_nextIs _ _ _ [] rfl, ⟨block_nextIs _ _ _ [] rfl, by decide⟩⟩

theorem witness_LoadOfAnotherNameIsUnsupported :
    (block cfg1 fresh1 [.load (.vec 1 [1]) (.vec 0 []) (.other "CONV")]).nextIs
      (.load (.vec 1 [1]) (.vec 0 []) (.other "CONV")) [] :=
  block_nextIs _ _ _ [] rfl

/-- SM 0 has a longer chunk, SM 1 has not. -/
theorem witness_PartitionDotBuildsTheStream :
    (block cfg1 loaded1 [.partition]).nextIs .partition [] ∧ loaded1.phase ≠ .empty ∧
      loaded1.operation = .dot ∧ loaded1.store = .vectors [1, 2, 3] [4, 5, 6] ∧
      ([1, 2, 3] : List (Word 8)).length = ([4, 5, 6] : List (Word 8)).length ∧
      1 < cfg1.S ∧ ¬1 < 3 % cfg1.S ∧ 0 < 3 % cfg1.S :=
  ⟨block_nextIs _ _ _ [] rfl, by decide, rfl, rfl, rfl, by decide, by decide, by decide⟩

theorem witness_PartitionMatmulBuildsTheCanonicalStream :
    (block cfg2 loaded2 [.partition]).nextIs .partition [] ∧ loaded2.phase ≠ .empty ∧
      loaded2.operation = .matmul ∧ loaded2.store = .matrices 2 2 2 [1, 2, 3, 4] [5, 6, 7, 8] ∧
      2 * 2 * 2 ≤ 4 * cfg2.S ∧ (∀ P', 2 * 2 * 2 ≤ P' * cfg2.S → 4 ≤ P') ∧ 1 < cfg2.S :=
  ⟨block_nextIs _ _ _ [] rfl, by decide, rfl, rfl, by decide,
    fun P' h => by change 8 ≤ P' * 2 at h; omega, by decide⟩

/-- DV-P2: chunks 1 and 2 are the last longer one and the first shorter one. -/
theorem witness_DotSplitIsContiguousAndNearEqual :
    0 < 4 ∧ 1 ≤ 2 ∧ (dotChunk 10 4 1).len = 3 ∧ (dotChunk 10 4 2).len = 2 := by decide

/-- DV-P10: chunk 3 is not empty, chunk 4 is. -/
theorem witness_MatmulSplitIsContiguousAndFull :
    0 < 5 ∧ 0 < (matmulChunk 12 5 (2 + 1)).len ∧ (matmulChunk 12 5 4).len = 0 :=
  by decide

theorem witness_RepeatedPartitionRewritesTheSameValues :
    (block cfg1 executed1 [.partition]).Inv ∧ (block cfg1 executed1 [.partition]).nextIs .partition [] ∧
      executed1.phase = .executed :=
  ⟨inv_executed1, block_nextIs _ _ _ [] rfl, rfl⟩

theorem witness_SequenceErrorHasTheseCauses :
    ((block cfg1 fresh1 [.partition]).nextIs .partition [] ∧
        (block cfg1 fresh1 [.reconstruct]).nextIs .reconstruct [] ∧ fresh1.phase = .empty) ∧
      ((block cfg1 loaded1 [.execute 0b000#3]).nextIs (.execute 0b000#3) [] ∧ loaded1.phase = .loaded) ∧
      ∃ t, step (block cfg1 loaded1 [.execute 0b000#3]) = .next t ∧
        t.responses = (block cfg1 loaded1 [.execute 0b000#3]).responses ++
          [.device .sequenceError none] :=
  ⟨⟨block_nextIs _ _ _ [] rfl, block_nextIs _ _ _ [] rfl, rfl⟩, ⟨block_nextIs _ _ _ [] rfl, rfl⟩, _, rfl,
    rfl⟩

theorem witness_ReconstructDotAnswersCellZero :
    (block cfg1 executed1 [.reconstruct]).nextIs .reconstruct [] ∧ executed1.phase ≠ .empty ∧
      executed1.operation = .dot :=
  ⟨block_nextIs _ _ _ [] rfl, by decide, rfl⟩

theorem witness_ReconstructMatmulAnswersTheOutputCells :
    (block cfg2 executed2 [.reconstruct]).nextIs .reconstruct [] ∧ executed2.phase ≠ .empty ∧
      executed2.operation = .matmul ∧
      executed2.store = .matrices 2 2 2 [1, 2, 3, 4] [5, 6, 7, 8] ∧ 2 * 2 ≤ cfg2.G :=
  ⟨block_nextIs _ _ _ [] rfl, by decide, rfl, rfl, by decide⟩

theorem witness_ReconstructIsIdempotent :
    (block cfg2 stale [.reconstruct, .reconstruct]).Inv ∧ stale.phase ≠ .empty ∧
      (∃ h, (block cfg2 stale [.reconstruct, .reconstruct]).pending =
        ⟨.reconstruct, h⟩ :: ⟨.reconstruct, h⟩ :: []) ∧
      (block cfg1 fresh1 [.reconstruct]).nextIs .reconstruct [] ∧
      ∃ t, step (block cfg1 fresh1 [.reconstruct]) = .next t :=
  ⟨inv_stale, by decide, ⟨rfl, rfl⟩, block_nextIs _ _ _ [] rfl, _, rfl⟩

/-- P1, for DotRunAnswersTheTruncatedSum and DotRunAnswersTheInnerProduct; the same data in 2-D. -/
theorem witness_DotRuns :
    let run := fun opA opB : Operand =>
      [Command.load opA opB .dot, .partition, .execute 0b101#3, .reconstruct]
    let s := block cfg1 fresh1 (run (.vec 3 [1, 2, 3]) (.vec 3 [4, 5, 6]))
    let s' := block cfg1 fresh1 (run (.mat 1 3 [1, 2, 3]) (.mat 3 1 [4, 5, 6]))
    (s.Inv ∧ s.noFault ∧ dotOperands (.vec 3 [1, 2, 3]) (.vec 3 [4, 5, 6]) [1, 2, 3] [4, 5, 6] ∧
        (s.pending.map Subtype.val).take 4 = run (.vec 3 [1, 2, 3]) (.vec 3 [4, 5, 6])) ∧
      (s'.Inv ∧ s'.noFault ∧ dotOperands (.mat 1 3 [1, 2, 3]) (.mat 3 1 [4, 5, 6]) [1, 2, 3] [4, 5, 6] ∧
        (s'.pending.map Subtype.val).take 4 = run (.mat 1 3 [1, 2, 3]) (.mat 3 1 [4, 5, 6])) ∧
      [(1 : Int), 2, 3].length = [(4 : Int), 5, 6].length ∧ 0 < [(1 : Int), 2, 3].length ∧
      (∀ p < 3, fitsWidth 8 ([1, 2, 3].getD p 0) ([4, 5, 6].getD p 0)) ∧ fitsCapacity cfg1 3 ∧
      fitsCell (∑ p ∈ Finset.range 3, [1, 2, 3].getD p 0 * [4, 5, 6].getD p 0) :=
  ⟨⟨inv_fresh1, rfl, .inl ⟨_, _, rfl, rfl⟩, rfl⟩, ⟨inv_fresh1, rfl, .inr ⟨_, _, _, _, rfl, rfl⟩, rfl⟩, rfl,
    by decide, by unfold fitsWidth; decide, by unfold fitsCapacity; decide, by unfold fitsCell; decide⟩

/-- P2: two of the four outputs are truncated. -/
theorem witness_MatmulRunAnswersTheTruncatedSums :
    let s := block cfg2 fresh2
      [.load (.mat 2 2 [1, 2, 3, 4]) (.mat 2 2 [5, 6, 7, 8]) .matmul, .partition, .execute 0b101#3,
        .reconstruct]
    s.Inv ∧ s.noFault ∧ 0 < 2 ∧ 2 * 2 ≤ cfg2.G ∧ (s.pending.map Subtype.val).take 4 =
      [.load (.mat 2 2 [1, 2, 3, 4]) (.mat 2 2 [5, 6, 7, 8]) .matmul, .partition, .execute 0b101#3,
        .reconstruct] :=
  ⟨inv_fresh2, rfl, by decide, by decide, rfl⟩

theorem witness_MatmulRunAnswersTheMatrixProduct :
    let s := block cfg2 fresh2
      [.load (.mat 2 1 [1, 2]) (.mat 1 2 [3, 4]) .matmul, .partition, .execute 0b101#3, .reconstruct]
    s.Inv ∧ s.noFault ∧ 0 < 2 ∧ 0 < 1 ∧ 2 * 2 ≤ cfg2.G ∧
      (∀ i < 2, ∀ j < 2, ∀ x < 1, fitsWidth 8 ([1, 2].getD (i * 1 + x) 0) ([3, 4].getD (x * 2 + j) 0)) ∧
      fitsCapacity cfg2 (2 * 2 * 1) ∧
      (∀ i < 2, ∀ j < 2, fitsCell (∑ x ∈ Finset.range 1, [1, 2].getD (i * 1 + x) 0 * [3, 4].getD (x * 2 + j) 0)) ∧
      (s.pending.map Subtype.val).take 4 =
        [.load (.mat 2 1 [1, 2]) (.mat 1 2 [3, 4]) .matmul, .partition, .execute 0b101#3, .reconstruct] :=
  ⟨inv_fresh2, rfl, by decide, by decide, by decide, by unfold fitsWidth; decide,
    by unfold fitsCapacity; decide, by unfold fitsCell; decide, rfl⟩

/-- A request that succeeds, for StepKeepsTheInvariant, EveryStepAnswers, TaskMapIsParallelToThePairStream,
ConfigurationIsNeverWritten, OnlyThreeCommandsWriteThePhase, FaultBitIsStickyAndInert,
EveryRequestGetsOneResponse and EachStatusComesOnlyFromItsCommands. -/
theorem witness_step :
    (block cfg1 loaded1 [.partition]).Inv ∧ (block cfg1 loaded1 [.partition]).nextIs .partition [] ∧
      ∃ t, step (block cfg1 loaded1 [.partition]) = .next t :=
  ⟨inv_loaded1, block_nextIs _ _ _ [] rfl, _, rfl⟩

/-- A run that ends faulted, and one that does not: the last clause of FaultBitIsStickyAndInert. -/
theorem witness_FaultBitIsStickyAndInert :
    (∃ t, Host.Core.run Sys2Proof.core 1 (block cfg1 fresh1 [.reconstruct]) = .next t ∧ ¬t.noFault) ∧
      ∃ t, (block cfg1 loaded1 [.partition]).runsTo 1 t :=
  ⟨⟨_, rfl, by unfold State.noFault; decide⟩, _, rfl, rfl⟩

/-- Another memory than the one in place, with a stale value in the output cell and in another one; an
EXECUTE that succeeds, and one that does not. -/
theorem witness_OnlyExecuteWritesAndOnlyReconstructReadsGlobalMemory :
    ((block cfg1 loaded1 [.partition]).nextIs .partition [] ∧ Command.partition ≠ .reconstruct ∧
        (∀ code, Command.partition ≠ .execute code) ∧
        ∃ t, step (block cfg1 loaded1 [.partition]) = .next t) ∧
      ((block cfg1 partitioned1 [.execute 0b101#3]).nextIs (.execute 0b101#3) [] ∧
        partitioned1.outputCell 0 ∧ ¬partitioned1.outputCell 1 ∧
        ∃ t, step (block cfg1 partitioned1 [.execute 0b101#3]) = .next t ∧
          t.responses = [.device .success none] ∧
          t.dev.gmem.read 0 ≠ partitioned1.gmem.read 0) ∧
      ((block cfg1 partitioned1 [.execute 0b000#3]).nextIs (.execute 0b000#3) [] ∧
        ∃ t, step (block cfg1 partitioned1 [.execute 0b000#3]) = .next t ∧
          t.responses ≠ [.device .success none]) ∧
      partitioned2.outputCell 3 ∧ ¬partitioned2.outputCell 4 ∧
      partitioned1.gmem.wf ∧ Memory.wf [(0, 7), (1, 9)] ∧ partitioned1.gmem ≠ [(0, 7), (1, 9)] := by
  refine ⟨⟨block_nextIs _ _ _ [] rfl, by decide, by simp, _, rfl⟩,
    ⟨block_nextIs _ _ _ [] rfl, rfl, by simp [Device.outputCell], _, rfl, rfl, by decide⟩,
    ⟨block_nextIs _ _ _ [] rfl, _, rfl, by decide⟩, ?_, ?_, by decide, by decide, by decide⟩
  · change 3 < 2 * 2; decide
  · change ¬4 < 2 * 2; decide

/-- An error, also for EachStatusComesOnlyFromItsCommands and FaultBitIsStickyAndInert. -/
theorem witness_ErrorsChangeNothing :
    (block cfg1 fresh1 [.partition]).nextIs .partition [] ∧ Status.sequenceError ≠ .success ∧
      ∃ t, step (block cfg1 fresh1 [.partition]) = .next t ∧
        t.responses = (block cfg1 fresh1 [.partition]).responses ++ [.device .sequenceError none] :=
  ⟨block_nextIs _ _ _ [] rfl, by decide, _, rfl, rfl⟩

/-- The last clause of EveryRequestGetsOneResponse. -/
theorem witness_idle :
    (block cfg1 executed1 []).pending = [] :=
  rfl

end Sys2Proof.Tests
end

section
/-!
The construction parameters (00_scope.md R5; 10_state.md R32): a step that answers keeps them.
-/

namespace Sys2Proof.Machine

/-- Whatever a request does, it does not write the configuration: each effect's state update names only
other fields. -/
theorem StepEffect.cfg_eq {s t : State} {cmd : Command} {rest : List Request}
    (h : StepEffect s cmd rest t) : t.cfg = s.cfg := by
  cases h with
  | load _ _ _ _ _ _ _ ht => rw [ht]
  | partition _ _ _ _ _ _ ht => rw [ht]
  | execute _ _ _ _ ht => rw [ht]
  | reconstruct _ _ _ _ ht => rw [ht]
  | alu _ _ _ _ ht => rw [ht]
  | error _ _ _ _ _ ht => rw [ht]

/-- Settles O54: an idle step keeps the whole state, and no effect of a request writes the
configuration. -/
theorem configurationIsNeverWritten : Obligations.ConfigurationIsNeverWritten := by
  intro s t hstep
  rcases step_idle_or_effect hstep with ⟨-, rfl⟩ | ⟨cmd, rest, -, heffect⟩
  · rfl
  · exact heffect.cfg_eq

end Sys2Proof.Machine
end

section
/-!
The chunk tables (44_device.md R200, R204): every chunk of either split ends within the stream. And the
partition state that the operands determine: its three parts fit one another (10_state.md R26).
-/

namespace Sys2Proof.Machine

variable {w : Nat}

/-- The DOT chunks follow one another (R200). -/
theorem dotChunk_start_succ (N S k : Nat) :
    (dotChunk N S (k + 1)).start = (dotChunk N S k).start + (dotChunk N S k).len := by
  simp only [dotChunk, Nat.succ_mul]
  split <;> omega

/-- No DOT chunk starts beyond the stream, nor would the one after the last. -/
theorem dotChunk_start_le {N S k : Nat} (hk : k ≤ S) : (dotChunk N S k).start ≤ N := by
  calc k * (N / S) + min k (N % S) ≤ S * (N / S) + N % S :=
        Nat.add_le_add (Nat.mul_le_mul_right _ hk) (Nat.min_le_right _ _)
    _ = N := Nat.div_add_mod N S

/-- Every chunk of the DOT split ends within the stream. -/
theorem dotSplit_end_le {N S : Nat} {ch : Chunk} (h : ch ∈ dotSplit N S) : ch.start + ch.len ≤ N := by
  obtain ⟨k, hk, rfl⟩ := List.mem_map.1 h
  rw [← dotChunk_start_succ]
  exact dotChunk_start_le (List.mem_range.1 hk)

/-- The MATMUL chunks follow one another (R204). -/
theorem matmulChunk_start_succ (T S k : Nat) :
    (matmulChunk T S (k + 1)).start = (matmulChunk T S k).start + (matmulChunk T S k).len := by
  have hle : k * ceilDiv T S ≤ (k + 1) * ceilDiv T S := Nat.mul_le_mul_right _ (Nat.le_succ k)
  simp only [matmulChunk]
  omega

/-- Every chunk of the MATMUL split ends within the stream. -/
theorem matmulSplit_end_le {T S : Nat} {ch : Chunk} (h : ch ∈ matmulSplit T S) :
    ch.start + ch.len ≤ T := by
  obtain ⟨k, -, rfl⟩ := List.mem_map.1 h
  rw [← matmulChunk_start_succ]
  exact Nat.min_le_right _ _

/-- A chunk of the cleared table is empty (R197). -/
theorem emptyChunks_end_eq {S : Nat} {ch : Chunk} (h : ch ∈ emptyChunks S) : ch.start + ch.len = 0 := by
  obtain rfl := List.eq_of_mem_replicate h
  rfl

/-- The partition state is cleared until PARTITION (R197). -/
theorem Device.partitionInv.cleared {c : Config} {d : Device w} (h : d.partitionInv c)
    (hp : d.phase.hasPartition = false) : d.pairs = [] ∧ d.taskMap = [] ∧ d.chunks = emptyChunks c.S := by
  unfold Device.partitionInv at h
  split at h
  case h_1 | h_2 => exact h
  case h_3 hph | h_4 hph => rw [hph] at hp; cases hp

/-- What a workload's operands determine: a task for every pair, and chunks that end within the pairs. -/
theorem partitionOf_parallel {S G : Nat} {op : Operation} {st : OperandStore w}
    {ps : List (OperandPair w)} {ts : List TaskCoord} {cs : List Chunk} (hw : holdsWorkload G op st)
    (h : partitionOf S op st = .ok (ps, ts, cs)) :
    ts.length = ps.length ∧ ∀ ch ∈ cs, ch.start + ch.len ≤ ps.length := by
  unfold partitionOf at h
  split at h <;> cases h
  case h_1 a b =>
    have hps : (dotPairs a b).length = a.length := by
      rw [dotPairs, List.length_zipWith, ← hw.1, Nat.min_self]
    exact ⟨by simp [dotTasks, hps], fun ch hch => hps ▸ dotSplit_end_le hch⟩
  case h_2 m k n a b =>
    have hps : (matmulPairs m k n a b).length = m * n * k := by simp [matmulPairs, matmulTasks]
    exact ⟨by simp [matmulPairs], fun ch hch => hps ▸ matmulSplit_end_le hch⟩

/-- Settles O53: the partition state is empty before PARTITION, and what the operands determine after
it. -/
theorem taskMapIsParallelToThePairStream : Obligations.TaskMapIsParallelToThePairStream := by
  intro s hinv
  have hlen := Device.Inv.chunks_length hinv
  obtain ⟨-, -, hwork, hpart⟩ := hinv
  suffices h : s.dev.taskMap.length = s.dev.pairs.length ∧
      ∀ ch ∈ s.dev.chunks, ch.start + ch.len ≤ s.dev.pairs.length from ⟨h.1, hlen, h.2⟩
  by_cases hp : s.dev.phase.hasPartition = true
  · exact partitionOf_parallel (hwork.holds (Phase.hasWorkload_of_hasPartition hp))
      (hpart.partitionOf_eq hp)
  · obtain ⟨hps, hts, hcs⟩ := hpart.cleared (Bool.eq_false_iff.2 hp)
    rw [hps, hts, hcs]
    exact ⟨rfl, fun ch hch => (emptyChunks_end_eq hch).le⟩

end Sys2Proof.Machine
end

section
/-!
The invariant (Sys2Proof/Safety.lean): each update that a command makes of the block keeps it, so every
effect of a step does.
-/

namespace Sys2Proof.Machine

section Updates
variable {w : Nat} {c : Config} {d : Device w}

/-- LOAD of a workload (44_device.md R197): memory and arena stay, the partition state is cleared. -/
theorem Device.Inv.loadWorkload {op : Operation} {st : OperandStore w} (h : d.Inv c)
    (hl : holdsWorkload c.G op st) : (d.loadWorkload c.S op st).Inv c := by
  obtain ⟨hmem, harena, -, -⟩ := h
  exact ⟨hmem, harena, hl, rfl, rfl, rfl⟩

/-- PARTITION of a workload (R205): the partition state becomes what the operands determine. -/
theorem Device.Inv.partition {ps : List (OperandPair w)} {ts : List TaskCoord} {cs : List Chunk}
    (h : d.Inv c) (hp : d.phase.hasWorkload = true)
    (hps : partitionOf c.S d.operation d.store = .ok (ps, ts, cs)) :
    Device.Inv c { d with pairs := ps, taskMap := ts, chunks := cs, phase := .partitioned } := by
  obtain ⟨hmem, harena, hwork, -⟩ := h
  exact ⟨hmem, harena, hwork.holds hp, hps⟩

/-- EXECUTE of a partitioned workload (R213): the rounds keep the arena's shape, the accumulation writes
only cells that exist, and operands and partition state stay. -/
theorem Device.Inv.execute {code : Code} {m : Memory} (h : d.Inv c) (hp : d.phase.hasPartition = true)
    (hm : d.accumulateInto c (resultStream (d.dispatch c code)) = .ok m) :
    Device.Inv c { d with sms := d.dispatch c code, gmem := m, phase := .executed } := by
  have hchunks := h.chunks_length
  obtain ⟨hmem, harena, hwork, hpart⟩ := h
  exact ⟨Device.accumulateInto_inv hm hmem, Device.dispatch_shaped code hchunks harena,
    hwork.holds (Phase.hasWorkload_of_hasPartition hp), hpart.partitionOf_eq hp⟩

/-- The invariant does not mention the fault bit. -/
theorem Device.inv_setFault (f : Bool) : Device.Inv c { d with fault := f } ↔ d.Inv c := Iff.rfl

end Updates

/-- Every effect of a request keeps the invariant. -/
theorem StepEffect.inv {s t : State} {cmd : Command} {rest : List Request}
    (h : StepEffect s cmd rest t) (hwf : cmd.wellFormed = true) (hinv : s.Inv) : t.Inv := by
  cases h with
  | load op st opA opB name hc hl ht =>
    rw [ht]
    exact Device.Inv.loadWorkload hinv (loadOperands_holds (hc ▸ hwf) hl)
  | partition ps ts cs _ hp hps ht =>
    rw [ht]
    exact Device.Inv.partition hinv hp hps
  | execute m _ hp hm ht =>
    rw [ht]
    exact Device.Inv.execute hinv hp hm
  | reconstruct _ _ _ _ ht =>
    rw [ht]
    exact hinv
  | alu _ _ _ _ ht =>
    rw [ht]
    exact hinv
  | error e p _ _ _ ht =>
    rw [ht]
    exact (Device.inv_setFault _).2 hinv

/-- Settles O51: an idle step keeps the whole state, and every effect of a request keeps the
invariant. -/
theorem stepKeepsTheInvariant : Obligations.StepKeepsTheInvariant := by
  intro s t hinv hstep
  rcases step_idle_or_effect hstep with ⟨-, rfl⟩ | ⟨cmd, rest, ⟨hwf, -⟩, heffect⟩
  · exact hinv
  · exact heffect.inv hwf hinv

end Sys2Proof.Machine
end

section
/-!
What a step answers, and the two registers that record it: the phase (10_state.md R22) and the sticky fault
bit (R23).
-/

namespace Sys2Proof.Machine

/-! ### Idle steps, and the converses of `Device.partition_eq_ok` and `Device.execute_eq_ok` -/

/-- With no request pending a step keeps all state (60_exceptions.md R258). -/
theorem step_idle {s : State} (h : s.pending = []) : step s = .next s := by
  rw [step, takeRequest, h]

/-- PARTITION's effect, given its partition (44_device.md R205). -/
theorem Device.partition_ok {w S : Nat} {d : Device w} {ps : List (OperandPair w)} {ts : List TaskCoord}
    {cs : List Chunk} (h : partitionOf S d.operation d.store = .ok (ps, ts, cs)) :
    d.partition S = .ok { d with pairs := ps, taskMap := ts, chunks := cs, phase := .partitioned } := by
  rw [Device.partition, h]
  rfl

/-- EXECUTE's effect, given the memory it leaves (44_device.md R213). -/
theorem Device.execute_ok {w : Nat} {c : Config} {code : Code} {d : Device w} {m : Memory}
    (h : d.accumulateInto c (resultStream (d.dispatch c code)) = .ok m) :
    d.execute c code = .ok { d with sms := d.dispatch c code, gmem := m, phase := .executed } := by
  simp only [Device.execute, h]
  rfl

/-! ### Reset -/

/-- Settles O49: construction gives each field the value of R36 by definition, and a memory with no cell
listed reads 0 everywhere (R52). -/
theorem resetLeavesTheSpecValues : Obligations.ResetLeavesTheSpecValues := by
  refine ⟨fun c => ⟨⟨rfl, rfl, rfl, rfl, rfl, rfl, rfl⟩, rfl, fun cell => ?_⟩, rfl⟩
  exact Memory.read_unlisted (m := []) (by simp)

/-! ### The phase -/

/-- Settles O55: of the effects of a request only the successful LOAD, PARTITION and EXECUTE name the
phase. -/
theorem onlyThreeCommandsWriteThePhase : Obligations.OnlyThreeCommandsWriteThePhase := by
  refine ⟨⟨rfl, rfl, rfl, rfl⟩, fun s t cmd rest hnext hstep => ?_⟩
  cases step_effect hnext hstep with
  | load _ _ _ _ _ hc _ ht =>
    subst ht
    exact .inr ⟨rfl, .inl ⟨⟨_, _, _, hc⟩, rfl⟩⟩
  | partition _ _ _ hc _ _ ht =>
    subst ht
    exact .inr ⟨rfl, .inr (.inl ⟨hc, rfl⟩)⟩
  | execute _ hc _ _ ht =>
    subst ht
    exact .inr ⟨rfl, .inr (.inr ⟨⟨_, hc⟩, rfl⟩)⟩
  | reconstruct _ _ _ _ ht =>
    subst ht
    exact .inl rfl
  | alu _ _ _ _ ht =>
    subst ht
    exact .inl rfl
  | error _ _ _ _ _ ht =>
    subst ht
    exact .inl rfl

/-! ### The response -/

/-- `r` is a response that `cmd` can be given (10_state.md R34): an integer to a direct ALU use, a status to
a Device command, with data exactly for a successful RECONSTRUCT. -/
def Response.answers (r : Response) (cmd : Command) : Prop :=
  match r with
  | .alu _ => ∃ a b form, cmd = .alu a b form
  | .device status data => (∀ a b form, cmd ≠ .alu a b form) ∧
    (data.isSome = true ↔ status = .success ∧ cmd = .reconstruct)

/-- An error carries no data. -/
theorem Response.answers.data_eq_none {e : Status} {data : Option Data} {cmd : Command}
    (h : (Response.device e data).answers cmd) (he : e ≠ .success) : data = none :=
  Option.not_isSome_iff_eq_none.1 fun hsome => he (h.2.1 hsome).1

/-- A direct ALU use answers no error status. -/
theorem Status.answers.ne_alu {e : Status} {cmd : Command} (h : e.answers cmd) (he : e ≠ .success)
    (a b : Int) (form : CodeForm) : cmd ≠ .alu a b form := by
  rintro rfl
  cases e <;> simp [Status.answers] at h he

/-- The errors that set the fault bit are the SequenceErrors (60_exceptions.md R245). -/
theorem Status.setsFault_iff (e : Status) : e.setsFault = true ↔ e = .sequenceError := by
  cases e <;> simp [Status.setsFault]

/-- Every effect takes the request and adds one response, and sets the fault bit exactly if that response is
a SequenceError. -/
theorem StepEffect.one_response {s t : State} {cmd : Command} {rest : List Request}
    (h : StepEffect s cmd rest t) :
    t.pending = rest ∧ ∃ r : Response, t.responses = s.responses ++ [r] ∧ r.answers cmd ∧
      (t.dev.fault = true ↔ s.dev.fault = true ∨ r = .device .sequenceError none) := by
  cases h with
  | load _ _ _ _ _ hc _ ht =>
    subst ht hc
    exact ⟨rfl, _, rfl, by simp [Response.answers], by simp⟩
  | partition _ _ _ hc _ _ ht =>
    subst ht hc
    exact ⟨rfl, _, rfl, by simp [Response.answers], by simp⟩
  | execute _ hc _ _ ht =>
    subst ht hc
    exact ⟨rfl, _, rfl, by simp [Response.answers], by simp⟩
  | reconstruct data hc _ _ ht =>
    subst ht hc
    exact ⟨rfl, _, rfl, by simp [Response.answers], by simp⟩
  | alu a b form hc ht =>
    subst ht
    exact ⟨rfl, _, rfl, ⟨a, b, form, hc⟩, by simp⟩
  | error e _ he hc _ ht =>
    subst ht
    exact ⟨rfl, _, rfl, ⟨hc.ne_alu he, by simp [he]⟩, by simp [Status.setsFault_iff]⟩

/-- Settles O58: the request is answered as `StepEffect.one_response` says; an idle step is the identity. -/
theorem everyRequestGetsOneResponse : Obligations.EveryRequestGetsOneResponse := by
  refine ⟨fun s t cmd rest hnext hstep => ?_, fun s hidle => step_idle hidle⟩
  obtain ⟨hrest, r, hr, hans, -⟩ := (step_effect hnext hstep).one_response
  exact ⟨hrest, r, hr, hans⟩

/-! ### The fault bit -/

/-- The same state with the fault bit set. -/
def State.faulted (s : State) : State := { s with dev := { s.dev with fault := true } }

/-- An error raised with the bit set differs in the bit only: SequenceError sets it again. -/
theorem State.raise_faulted (s : State) (e : Status) : s.faulted.raise e = (s.raise e).faulted := rfl

/-! Each command answers from a faulted state what it answers from the state itself, faulted: its checks and
its effect read every field but the bit. -/

section Inert
variable {s t : State}

theorem deviceLoad_faulted {opA opB : Operand} {name : OpName} (h : deviceLoad opA opB name s = .next t) :
    deviceLoad opA opB name s.faulted = .next t.faulted := by
  rcases deviceLoad_cases h with ⟨op, st, hl, rfl⟩ | ⟨e, hl, rfl⟩
  · exact deviceLoad_ok (s := s.faulted) hl
  · exact deviceLoad_error (s := s.faulted) hl

theorem devicePartition_faulted (h : devicePartition s = .next t) :
    devicePartition s.faulted = .next t.faulted := by
  rcases devicePartition_cases h with ⟨hp, d, hd, rfl⟩ | ⟨hp, rfl⟩
  · refine devicePartition_ok (s := s.faulted) (d := { d with fault := true }) hp ?_
    obtain ⟨ps, ts, cs, hps, rfl⟩ := Device.partition_eq_ok hd
    exact Device.partition_ok (d := s.faulted.dev) hps
  · exact devicePartition_empty (s := s.faulted) hp

theorem deviceExecute_faulted {code : Code} (h : deviceExecute code s = .next t) :
    deviceExecute code s.faulted = .next t.faulted := by
  rcases deviceExecute_cases h with ⟨hp, hc, d, hd, rfl⟩ | ⟨hp, hc, rfl⟩ | ⟨hp, rfl⟩
  · refine deviceExecute_ok (s := s.faulted) (d := { d with fault := true }) hp hc ?_
    obtain ⟨m, hm, rfl⟩ := Device.execute_eq_ok hd
    exact Device.execute_ok (d := s.faulted.dev) hm
  · exact deviceExecute_unsupported (s := s.faulted) hp hc
  · exact deviceExecute_outOfPhase (s := s.faulted) hp

theorem deviceReconstruct_faulted (h : deviceReconstruct s = .next t) :
    deviceReconstruct s.faulted = .next t.faulted := by
  rcases deviceReconstruct_cases h with ⟨hp, data, hd, rfl⟩ | ⟨hp, rfl⟩
  · exact deviceReconstruct_ok (s := s.faulted) hp hd
  · exact deviceReconstruct_empty (s := s.faulted) hp

/-- No command reads the fault bit (R23). -/
theorem runCommand_faulted {cmd : Command} (h : runCommand cmd s = .next t) :
    runCommand cmd s.faulted = .next t.faulted := by
  cases cmd with
  | load opA opB name => exact deviceLoad_faulted h
  | partition => exact devicePartition_faulted h
  | execute code =>
    simp only [runCommand, runExecute_eq] at h ⊢
    exact deviceExecute_faulted h
  | reconstruct => exact deviceReconstruct_faulted h
  | alu a b form =>
    simp only [runCommand, runAlu_eq, Host.Outcome.next.injEq] at h ⊢
    subst h
    rfl

/-- With the fault bit set a step answers the same next state with the bit set. -/
theorem step_faulted (h : step s = .next t) : step s.faulted = .next t.faulted := by
  rcases step_cases h with ⟨hidle, rfl⟩ | ⟨req, rest, hp, hrun⟩
  · exact step_idle (s := t.faulted) hidle
  · exact (step_request (s := s.faulted) hp).trans (runCommand_faulted hrun)

end Inert

/-- Between `s` and `t` the responses `given` were added, and they account for the fault bit: it is clear
exactly if it was and none of them is a SequenceError. -/
def faultAccountedBy (s t : State) (given : List Response) : Prop :=
  t.responses = s.responses ++ given ∧
    (t.noFault ↔ s.noFault ∧ ∀ data, .device .sequenceError data ∉ given)

theorem faultAccountedBy_refl (s : State) : faultAccountedBy s s [] := ⟨by simp, by simp⟩

theorem faultAccountedBy.trans {s t u : State} {g g' : List Response} (h : faultAccountedBy s t g)
    (h' : faultAccountedBy t u g') : faultAccountedBy s u (g ++ g') := by
  refine ⟨by rw [h'.1, h.1, List.append_assoc], ?_⟩
  rw [h'.2, h.2, and_assoc, ← forall_and]
  simp only [List.mem_append, not_or]

/-- A step gives the responses that account for its fault bit: none, or the one of its request. -/
theorem step_faultAccountedBy {s t : State} (h : step s = .next t) : ∃ given, faultAccountedBy s t given := by
  rcases step_idle_or_effect h with ⟨-, rfl⟩ | ⟨cmd, rest, -, heffect⟩
  · exact ⟨[], faultAccountedBy_refl _⟩
  · obtain ⟨-, r, hr, hans, hfault⟩ := heffect.one_response
    refine ⟨[r], hr, ?_⟩
    have hseq : r = .device .sequenceError none ↔ ∃ data, r = .device .sequenceError data := by
      refine ⟨fun h => ⟨_, h⟩, ?_⟩
      rintro ⟨data, rfl⟩
      rw [hans.data_eq_none (by decide)]
    rw [State.noFault, State.noFault, ← Bool.not_eq_true, ← Bool.not_eq_true, hfault, hseq]
    simp only [not_or, not_exists, List.mem_singleton, eq_comm (a := r)]

/-- A run of `n + 1` steps that answers is a step that answers and a run of `n`. -/
theorem run_succ_eq_next {M : Host.Core} {n : Nat} {s t : M.State} (h : M.run (n + 1) s = .next t) :
    ∃ u, M.step s = .next u ∧ M.run n u = .next t := by
  unfold Host.Core.run at h
  split at h
  · exact ⟨_, ‹_›, h⟩
  · cases h
  · cases h

/-- The responses of a run account for its fault bit (60_exceptions.md R259). -/
theorem run_faultAccountedBy {n : Nat} {s t : State} (h : Host.Core.run Sys2Proof.core n s = .next t) :
    ∃ given, faultAccountedBy s t given := by
  induction n generalizing s with
  | zero =>
    cases h
    exact ⟨[], faultAccountedBy_refl _⟩
  | succ n ih =>
    obtain ⟨u, hstep, hrun⟩ := run_succ_eq_next h
    obtain ⟨given, hg⟩ := step_faultAccountedBy hstep
    obtain ⟨given', hg'⟩ := ih hrun
    exact ⟨_, hg.trans hg'⟩

/-- Settles O56: each response sets the bit or not (`StepEffect.one_response`), no command reads it
(`step_faulted`), and a run adds up its steps (`run_faultAccountedBy`). -/
theorem faultBitIsStickyAndInert : Obligations.FaultBitIsStickyAndInert := by
  refine ⟨fun _ => rfl, fun s t cmd rest hnext hstep => ?_, fun s t hstep => step_faulted hstep,
    fun n s t hrun => run_faultAccountedBy hrun⟩
  obtain ⟨-, r, hr, -, hfault⟩ := (step_effect hnext hstep).one_response
  rw [hfault, hr, List.append_cancel_left_eq, List.singleton_inj]

end Sys2Proof.Machine
end

section
/-!
Global memory (20_memory.md R51): only EXECUTE writes it, and only the output cells; only RECONSTRUCT reads
it.
-/

namespace Sys2Proof.Machine

/-! ### What is written -/

/-- Every effect of a request keeps global memory, except that EXECUTE's may change the output cells. -/
theorem StepEffect.gmem {s t : State} {cmd : Command} {rest : List Request}
    (h : StepEffect s cmd rest t) :
    t.dev.gmem = s.dev.gmem ∨ (∃ code, cmd = .execute code) ∧
      ∀ cell, ¬s.dev.outputCell cell → t.dev.gmem.read cell = s.dev.gmem.read cell := by
  cases h with
  | execute m hc _ hm ht =>
    subst ht
    obtain ⟨_, -, -, -, hother⟩ := Device.accumulateInto_gmem hm s.dev.gmem
    exact .inr ⟨⟨_, hc⟩, fun cell hcell => (hother cell hcell).2⟩
  | load _ _ _ _ _ _ _ ht =>
    subst ht
    exact .inl rfl
  | partition _ _ _ _ _ _ ht =>
    subst ht
    exact .inl rfl
  | reconstruct _ _ _ _ ht =>
    subst ht
    exact .inl rfl
  | alu _ _ _ _ ht =>
    subst ht
    exact .inl rfl
  | error _ _ _ _ _ ht =>
    subst ht
    exact .inl rfl

/-! ### What is read -/

/-- The same state with the global memory `m` in place of its own. -/
def State.withGmem (s : State) (m : Memory) : State := { s with dev := { s.dev with gmem := m } }

section OtherMemory
variable {s t : State}

theorem deviceLoad_withGmem {opA opB : Operand} {name : OpName} (h : deviceLoad opA opB name s = .next t)
    (m : Memory) : deviceLoad opA opB name (s.withGmem m) = .next (t.withGmem m) := by
  rcases deviceLoad_cases h with ⟨op, st, hl, rfl⟩ | ⟨e, hl, rfl⟩
  · exact deviceLoad_ok (s := s.withGmem m) hl
  · exact deviceLoad_error (s := s.withGmem m) hl

theorem devicePartition_withGmem (h : devicePartition s = .next t) (m : Memory) :
    devicePartition (s.withGmem m) = .next (t.withGmem m) := by
  rcases devicePartition_cases h with ⟨hp, d, hd, rfl⟩ | ⟨hp, rfl⟩
  · refine devicePartition_ok (s := s.withGmem m) (d := { d with gmem := m }) hp ?_
    obtain ⟨ps, ts, cs, hps, rfl⟩ := Device.partition_eq_ok hd
    exact Device.partition_ok (d := (s.withGmem m).dev) hps
  · exact devicePartition_empty (s := s.withGmem m) hp

/-- Over another global memory a request other than EXECUTE and RECONSTRUCT answers the same next state with
that memory kept. -/
theorem runCommand_withGmem {cmd : Command} (hr : cmd ≠ .reconstruct) (he : ∀ code, cmd ≠ .execute code)
    (h : runCommand cmd s = .next t) (m : Memory) :
    runCommand cmd (s.withGmem m) = .next (t.withGmem m) := by
  cases cmd with
  | load opA opB name => exact deviceLoad_withGmem h m
  | partition => exact devicePartition_withGmem h m
  | execute code => exact absurd rfl (he code)
  | reconstruct => exact absurd rfl hr
  | alu a b form =>
    simp only [runCommand, runAlu_eq, Host.Outcome.next.injEq] at h ⊢
    subst h
    rfl

/-- Over another canonical memory EXECUTE answers the same next state but for global memory: the output cells
hold the same values and the rest is kept, or an error keeps the whole memory. -/
theorem deviceExecute_withGmem {code : Code} {m : Memory} (h : deviceExecute code s = .next t)
    (hs : s.dev.gmem.wf) (hm : m.wf) :
    ∃ m' : Memory, m'.wf ∧ deviceExecute code (s.withGmem m) = .next (t.withGmem m') ∧
      if t.responses = s.responses ++ [.device .success none] then
        ∀ cell, (s.dev.outputCell cell → m'.read cell = t.dev.gmem.read cell) ∧
          (¬s.dev.outputCell cell → m'.read cell = m.read cell)
      else m' = m := by
  rcases deviceExecute_cases h with ⟨hp, hc, d, hd, rfl⟩ | ⟨hp, hc, rfl⟩ | ⟨hp, rfl⟩
  · obtain ⟨m₁, hm₁, rfl⟩ := Device.execute_eq_ok hd
    obtain ⟨m', hacc, hwf, hout, hother⟩ := Device.accumulateInto_gmem hm₁ m
    refine ⟨m', hwf hm, ?_, ?_⟩
    · exact deviceExecute_ok (s := s.withGmem m) hp hc (Device.execute_ok (d := (s.withGmem m).dev) hacc)
    · rw [State.succeed_responses, State.setDev_responses, if_pos rfl]
      exact fun cell => ⟨hout hs hm cell, fun hcell => (hother cell hcell).1⟩
  · exact ⟨m, hm, deviceExecute_unsupported (s := s.withGmem m) hp hc, by simp⟩
  · exact ⟨m, hm, deviceExecute_outOfPhase (s := s.withGmem m) hp, by simp⟩

end OtherMemory

/-- Settles O57: what a step writes is `StepEffect.gmem`; what it reads is `runCommand_withGmem`, and
`deviceExecute_withGmem` for EXECUTE. -/
theorem onlyExecuteWritesAndOnlyReconstructReadsGlobalMemory :
    Obligations.OnlyExecuteWritesAndOnlyReconstructReadsGlobalMemory := by
  refine ⟨fun s t cmd rest hnext hstep hexec => ?_, fun s t code rest hnext hstep cell hchanged => ?_,
    fun s t m cmd rest hnext hrec hexec hstep => ?_, fun s t m code rest hnext hs hm hstep => ?_⟩
  · rcases (step_effect hnext hstep).gmem with hkept | ⟨⟨code, hcode⟩, -⟩
    · exact hkept
    · exact absurd hcode (hexec code)
  · rcases (step_effect hnext hstep).gmem with hkept | ⟨-, hother⟩
    · exact absurd (by rw [hkept]) hchanged
    · exact not_imp_comm.1 (hother cell) hchanged
  · rw [step_nextIs hnext] at hstep
    exact (step_nextIs (s := s.withGmem m) hnext).trans (runCommand_withGmem hrec hexec hstep m)
  · rw [step_execute hnext] at hstep
    obtain ⟨m', hwf, hexec, hcells⟩ := deviceExecute_withGmem hstep hs hm
    exact ⟨m', hwf, (step_execute (s := s.withGmem m) hnext).trans hexec, hcells⟩

end Sys2Proof.Machine
end

section
/-!
The decoder (30_encoding.md R71 to R75; 41_alu.md R120 to R122): which presented forms stand for a 3-bit
code, what each form decodes to, and that a step runs what was decoded.
-/

namespace Sys2Proof

open Machine

/-! ### What a 3-bit code decodes to -/

/-- Decoding a 3-bit code inverts the encoder (R72). -/
theorem decodeBits_eq_op_iff {code : Code} {i : Instr} : decodeBits code = .op i ↔ encode i = code := by
  refine ⟨fun hi => ?_, fun hcode => hcode ▸ decodeBits_encode i⟩
  obtain ⟨j, rfl, hj⟩ := exists_encode code
  rw [hj, Decoded.op.injEq] at hi
  rw [hi]

/-- All eight codes are assigned (R74). -/
theorem decodeBits_ne_invalid (code : Code) : decodeBits code ≠ .invalid := by
  obtain ⟨i, -, hi⟩ := exists_encode code
  simp [hi]

/-! ### What a presented form decodes to -/

/-- A form that stands for a 3-bit code decodes as that code. -/
theorem decode_of_read_some {form : CodeForm} {code : Code} (h : form.read = some code) :
    decode form = decodeBits code := by
  rw [decode, h]

theorem decode_of_read_none {form : CodeForm} (h : form.read = none) : decode form = .invalid := by
  rw [decode, h]

/-- The 3-bit port is read as it stands (R70). -/
@[simp] theorem decode_bits (code : Code) : decode (.bits code) = decodeBits code := decode_of_read_some rfl

/-- INVALID is exactly the answer to a form outside the 3-bit domain (R73, R121). -/
theorem decode_eq_invalid_iff (form : CodeForm) : decode form = .invalid ↔ form.read = none := by
  cases hread : form.read with
  | none => simp [decode_of_read_none hread]
  | some code => simp [decode_of_read_some hread, decodeBits_ne_invalid]

/-- A form decodes to an instruction exactly when it stands for that instruction's code. -/
theorem decode_eq_op_iff {form : CodeForm} {i : Instr} :
    decode form = .op i ↔ form.read = some (encode i) := by
  cases hread : form.read with
  | none => simp [decode_of_read_none hread]
  | some code => rw [decode_of_read_some hread, decodeBits_eq_op_iff, Option.some.injEq, eq_comm]

/-! ### Numbers -/

/-- A number is malformed exactly when it lies outside `[0, 8)` (R73). -/
theorem read_number_eq_none_iff (n : Int) : (CodeForm.number n).read = none ↔ ¬(0 ≤ n ∧ n < 8) := by
  simp [CodeForm.read]

/-- A number that stands for a code stands for its own binary numeral. -/
theorem read_number_eq_some {n : Int} {code : Code} (h : (CodeForm.number n).read = some code) :
    code = BitVec.ofNat 3 n.toNat := by
  simp only [CodeForm.read, Option.ite_none_right_eq_some, Option.some.injEq] at h
  exact h.2.symm

/-! ### Strings -/

/-- A character stands for no digit exactly when it is not a binary digit. -/
theorem readDigit_eq_none_iff (d : Char) : readDigit d = none ↔ ¬(d = '0' ∨ d = '1') := by
  unfold readDigit
  split
  · simp_all
  · split <;> simp_all

/-- The digit written for a bit reads as its value. -/
theorem readDigit_of_bit (b : Bool) : readDigit (if b then '1' else '0') = some b.toNat := by
  cases b <;> rfl

/-- Three written bits are a binary numeral, most significant digit first (R71, D5). -/
theorem readText_of_bits (d2 d1 d0 : Bool) :
    readText [if d2 then '1' else '0', if d1 then '1' else '0', if d0 then '1' else '0'] =
      some (BitVec.ofNat 3 (4 * d2.toNat + 2 * d1.toNat + d0.toNat)) := by
  simp only [readText, readDigit_of_bit]

/-- The bits of the binary numeral `d2 d1 d0`. -/
theorem getLsbD_numeral (d2 d1 d0 : Bool) :
    (BitVec.ofNat 3 (4 * d2.toNat + 2 * d1.toNat + d0.toNat)).getLsbD 2 = d2 ∧
      (BitVec.ofNat 3 (4 * d2.toNat + 2 * d1.toNat + d0.toNat)).getLsbD 1 = d1 ∧
      (BitVec.ofNat 3 (4 * d2.toNat + 2 * d1.toNat + d0.toNat)).getLsbD 0 = d0 := by
  revert d2 d1 d0
  decide

/-- Three characters are malformed exactly when one of them is no binary digit. -/
theorem readText_three_eq_none_iff (d2 d1 d0 : Char) :
    readText [d2, d1, d0] = none ↔ readDigit d2 = none ∨ readDigit d1 = none ∨ readDigit d0 = none := by
  rw [readText]
  split
  · next h2 h1 h0 => simp [h2, h1, h0]
  · next hnot =>
    refine iff_of_true rfl ?_
    by_contra hall
    simp only [not_or, ← ne_eq, Option.ne_none_iff_exists'] at hall
    obtain ⟨⟨_, h2⟩, ⟨_, h1⟩, _, h0⟩ := hall
    exact hnot _ _ _ h2 h1 h0

/-- A string is malformed exactly when it is not three binary digits (R73). -/
theorem readText_eq_none_iff (chars : List Char) :
    readText chars = none ↔ ¬(chars.length = 3 ∧ ∀ d ∈ chars, d = '0' ∨ d = '1') := by
  match chars with
  | [] | [_] | [_, _] | _ :: _ :: _ :: _ :: _ => simp [readText]
  | [d2, d1, d0] =>
    simp only [readText_three_eq_none_iff, readDigit_eq_none_iff, ← not_and_or]
    simp

/-- Settles O1: the two tables are closed facts; a 3-bit code is `decodeBits_eq_op_iff`, and a written one
is read by `readText_of_bits`. -/
theorem decoderReadsTheEightSpecCodes : Obligations.DecoderReadsTheEightSpecCodes := by
  refine ⟨by decide, by decide, fun code i => ?_, fun d2 d1 d0 => ?_⟩
  · rw [decode_bits, decodeBits_eq_op_iff]
  · obtain ⟨h2, h1, h0⟩ := getLsbD_numeral d2 d1 d0
    exact ⟨_, h2, h1, h0, decode_of_read_some (readText_of_bits d2 d1 d0)⟩

/-! ### Malformed codes at a direct ALU port -/

/-- INVALID gives the zero result whatever the operands (41_alu.md R134). -/
theorem aluExec_invalid (w : Nat) (a b : Int) : aluExec w (aluOp .invalid) a b = 0 := by
  simp [aluExec, aluOp, aluInvalid, dec]

/-- Settles O2: `decode_eq_invalid_iff` over each form, and `runAlu_eq` with `aluExec_invalid` for the
direct use. -/
theorem malformedCodesAreInvalidAndGiveZero : Obligations.MalformedCodesAreInvalidAndGiveZero := by
  refine ⟨fun n => ?_, fun chars => ?_, fun code => ?_, fun s a b form rest hnext hinvalid => ?_⟩
  · rw [decode_eq_invalid_iff, read_number_eq_none_iff]
  · rw [decode_eq_invalid_iff]
    exact readText_eq_none_iff chars
  · rw [decode_bits]
    exact decodeBits_ne_invalid code
  · rw [step_nextIs hnext, runCommand, hinvalid, runAlu_eq, aluExec_invalid]
    rfl

/-! ### The step of a decoded instruction -/

/-- A direct ALU use whose code decodes runs the instruction with the port latched (R82). -/
theorem step_alu_of_decode {s : State} {a b : Int} {form : CodeForm} {rest : List Request} {i : Instr}
    (hnext : s.nextIs (.alu a b form) rest) (hdecode : decode form = .op i) :
    step s = exec i { s with pending := rest, port := .direct a b } := by
  rw [step_nextIs hnext, runCommand, hdecode, runAlu]

/-- An EXECUTE whose code decodes runs the instruction with the port at the Device (R75). -/
theorem step_execute_of_decode {s : State} {code : Code} {rest : List Request} {i : Instr}
    (hnext : s.nextIs (.execute code) rest) (hdecode : decodeBits code = .op i) :
    step s = exec i { s with pending := rest, port := .device } := by
  rw [step_nextIs hnext, runCommand, runExecute, hdecode]

theorem decodeTableWord_eq_some_iff {nbits w : Nat} {i : Instr} :
    decodeTableWord nbits w = some i ↔ decode (.number (Int.ofNat (w % 2 ^ nbits))) = .op i := by
  unfold decodeTableWord
  cases decode (.number (Int.ofNat (w % 2 ^ nbits))) <;> simp

/-- A number that decodes to an instruction is, cut to 3 bits, that instruction's code. -/
theorem decodeBits_ofNat_of_decode_number {n : Nat} {i : Instr}
    (h : decode (.number (Int.ofNat n)) = .op i) : decodeBits (BitVec.ofNat 3 n) = .op i :=
  decodeBits_eq_op_iff.2 (read_number_eq_some (decode_eq_op_iff.1 h))

/-- The presented word is taken at the port in place, and the step leaves the state it was put on to run
the instruction. -/
theorem step_withFetchWord {s : State} {nbits w : Nat} {i : Instr}
    (h : decodeTableWord nbits w = some i) : step (s.withFetchWord nbits w) = exec i s := by
  rw [decodeTableWord_eq_some_iff] at h
  obtain ⟨cfg, dev, port, pending, responses⟩ := s
  cases port with
  | direct a b => exact step_alu_of_decode ⟨rfl, rfl⟩ h
  | device => exact step_execute_of_decode ⟨rfl, rfl⟩ (decodeBits_ofNat_of_decode_number h)

/-- Settles O3: one lemma for each way an instruction is presented. -/
theorem stepRunsTheDecodedInstruction : Obligations.StepRunsTheDecodedInstruction :=
  ⟨fun _ _ _ _ _ _ => step_alu_of_decode, fun _ _ _ _ => step_execute_of_decode,
    fun _ _ _ _ => step_withFetchWord⟩

end Sys2Proof
end

section
/-!
The ALU (41_alu.md R123 to R137): its operations as arithmetic modulo `2^w`, and what each instruction
answers at a direct port.
-/

namespace Sys2Proof.Machine

/-! ### The ripple adder as addition of words -/

section Adder
variable {w : Nat}

/-- Sum and carry-out of the ripple adder are together the exact sum (40_adder_chain.md R102). -/
theorem rippleAdd_exact (A B : Word w) :
    dec (rippleAdd A B).1 + 2 ^ w * (rippleAdd A B).2.toNat = dec A + dec B := by
  obtain ⟨hlen, hsum⟩ := rippleChain_spec (bitsOf A) (bitsOf B) false (by simp)
  have hlt := numberOf_lt (rippleChain (bitsOf A) (bitsOf B) false).1
  rw [hlen, bitsOf_length] at hlt
  simp only [numberOf_bitsOf, bitsOf_length, Bool.toNat_false, Nat.add_zero] at hsum
  simpa only [rippleAdd, dec, BitVec.toNat_ofNat, Nat.mod_eq_of_lt hlt] using hsum

/-- The sum of the ripple adder is the sum modulo `2^w` (R103). -/
theorem rippleAdd_sum (A B : Word w) : (rippleAdd A B).1 = A + B := by
  have hlt := dec_lt (rippleAdd A B).1
  refine dec_inj (Eq.trans ?_ (BitVec.toNat_add A B).symm)
  change _ = (dec A + dec B) % 2 ^ w
  rw [← rippleAdd_exact, Nat.add_mul_mod_self_left, Nat.mod_eq_of_lt hlt]

/-- Inversion plus 1 is the negation modulo `2^w` (R105). -/
theorem twos_eq_neg (B : Word w) : twos B = -B := by
  rw [twos, discardCarry, rippleAdd_sum, BitVec.neg_eq_not_add]

end Adder

/-! ### The operations on words -/

section Operations
variable {w : Nat}

/-- The operation is selected by the code of its instruction (R123). -/
theorem alu_encode (i : Instr) (A B : Word w) : alu A B (encode i) = aluOp (.op i) A B := by
  rw [alu, decodeBits_encode]

theorem aluAdd_eq_add (A B : Word w) : aluAdd A B = A + B := rippleAdd_sum A B

theorem aluSub_eq_sub (A B : Word w) : aluSub A B = A - B := by
  rw [aluSub, discardCarry, rippleAdd_sum, twos_eq_neg, BitVec.sub_eq_add_neg]

/-- The product, cut to `w` bits (R131). -/
theorem dec_aluMul (A B : Word w) : dec (aluMul A B) = dec A * dec B % 2 ^ w := dec_enc_nat w _

theorem aluMul_eq_mul (A B : Word w) : aluMul A B = A * B :=
  dec_inj ((dec_aluMul A B).trans (BitVec.toNat_mul A B).symm)

/-- The unsigned floor quotient, which fits; a zero divisor gives 0, as it does in `Nat` (R132). -/
theorem dec_aluDiv (A B : Word w) : dec (aluDiv A B) = dec A / dec B := by
  unfold aluDiv
  split
  · next hzero => rw [hzero, Nat.div_zero]; exact BitVec.toNat_zero
  · rw [dec_enc_nat, Nat.mod_eq_of_lt ((Nat.div_le_self _ _).trans_lt (dec_lt A))]

end Operations

/-! ### Encoded integers under the operations (R124, R125, R137) -/

section Encoded
variable (w : Nat) (a b : Int)

theorem enc_eq_ofInt : enc w a = BitVec.ofInt w a := by
  refine dec_inj (Int.ofNat.inj ((dec_enc w a).trans ?_))
  have hnonneg : 0 ≤ a % 2 ^ w := Int.emod_nonneg a (by positivity)
  simp [dec, hnonneg]

theorem aluAdd_enc : aluAdd (enc w a) (enc w b) = enc w (a + b) := by
  simp only [aluAdd_eq_add, enc_eq_ofInt, BitVec.ofInt_add]

theorem aluSub_enc : aluSub (enc w a) (enc w b) = enc w (a - b) := by
  simp only [aluSub_eq_sub, enc_eq_ofInt, BitVec.sub_eq_add_neg, ← BitVec.ofInt_neg, ← BitVec.ofInt_add,
    Int.sub_eq_add_neg]

theorem aluMul_enc : aluMul (enc w a) (enc w b) = enc w (a * b) := by
  simp only [aluMul_eq_mul, enc_eq_ofInt, BitVec.ofInt_mul]

/-- DIV on integers divides their residues; a zero residue as divisor gives 0, as it does in `Int`. -/
theorem aluExec_div : aluExec w aluDiv a b = a % 2 ^ w / (b % 2 ^ w) := by
  rw [aluExec, dec_aluDiv, Int.natCast_ediv, dec_enc, dec_enc]

theorem aluExec_nop : aluExec w aluNop a b = 0 := by
  simp [aluExec, aluNop, dec]

end Encoded

/-! ### What an instruction answers at a direct port -/

section Direct
variable {s : State} {a b : Int}

/-- An instruction answers what its operation gives for the integer operands, and changes nothing else. -/
theorem exec_direct_answers {y : Int} (i : Instr) (hy : aluExec s.cfg.W (aluOp (.op i)) a b = y)
    (hport : s.port = .direct a b) :
    exec i s = .next { s with responses := s.responses ++ [.alu y] } := by
  rw [exec_direct i hport, hy]
  rfl

/-- An instruction whose operation takes the encoded operands to the encoding of `r` answers
`r mod 2^W`. -/
theorem exec_direct_residue {r : Int} (i : Instr)
    (hop : aluOp (.op i) (enc s.cfg.W a) (enc s.cfg.W b) = enc s.cfg.W r) :
    s.port = .direct a b →
      exec i s = .next { s with responses := s.responses ++ [.alu (r % 2 ^ s.cfg.W)] } :=
  exec_direct_answers i (by rw [aluExec, hop, dec_enc])

/-- An instruction that combines the bits of words position by position answers the word that so combines
the bits of its integer operands. -/
theorem exec_direct_bitwise (i : Instr) (g : Bool → Bool → Bool)
    (hop : ∀ (w : Nat) (A B : Word w) (j : Nat),
      (aluOp (.op i) A B).getLsbD j = g (A.getLsbD j) (B.getLsbD j))
    (hport : s.port = .direct a b) :
    ∃ y : Nat, exec i s = .next { s with responses := s.responses ++ [.alu y] } ∧ y < 2 ^ s.cfg.W ∧
      ∀ j < s.cfg.W, y.testBit j = g (a.testBit j) (b.testBit j) := by
  refine ⟨_, exec_direct i hport, dec_lt _, fun j hj => ?_⟩
  rw [← testBit_enc _ a hj, ← testBit_enc _ b hj]
  exact hop _ _ _ j

end Direct

/-! ### The obligations -/

/-- Settles O8: ADD of encodings encodes the sum. -/
theorem addAnswersTheSumModuloTwoToTheWidth : Obligations.AddAnswersTheSumModuloTwoToTheWidth :=
  ⟨rfl, fun _ _ _ => rfl, fun _ _ _ => exec_direct_residue .add (aluAdd_enc _ _ _)⟩

/-- Settles O9: SUB of encodings encodes the difference. -/
theorem subAnswersTheDifferenceModuloTwoToTheWidth :
    Obligations.SubAnswersTheDifferenceModuloTwoToTheWidth :=
  ⟨rfl, fun _ _ _ => rfl, fun _ _ _ => exec_direct_residue .sub (aluSub_enc _ _ _)⟩

/-- Settles O10: AND is bitwise. -/
theorem andAnswersTheBitwiseConjunction : Obligations.AndAnswersTheBitwiseConjunction :=
  have hand (w : Nat) (A B : Word w) (i : Nat) : (aluAnd A B).getLsbD i = (A.getLsbD i && B.getLsbD i) :=
    BitVec.getLsbD_and
  ⟨rfl, hand, fun _ _ _ => exec_direct_bitwise .and and hand⟩

/-- Settles O11: OR is bitwise. -/
theorem orAnswersTheBitwiseDisjunction : Obligations.OrAnswersTheBitwiseDisjunction :=
  have hor (w : Nat) (A B : Word w) (i : Nat) : (aluOr A B).getLsbD i = (A.getLsbD i || B.getLsbD i) :=
    BitVec.getLsbD_or
  ⟨rfl, hor, fun _ _ _ => exec_direct_bitwise .or or hor⟩

/-- Settles O12: XOR is bitwise. -/
theorem xorAnswersTheBitwiseDifference : Obligations.XorAnswersTheBitwiseDifference :=
  have hxor (w : Nat) (A B : Word w) (i : Nat) : (aluXor A B).getLsbD i = (A.getLsbD i ^^ B.getLsbD i) :=
    BitVec.getLsbD_xor
  ⟨rfl, hxor, fun _ _ _ => exec_direct_bitwise .xor xor hxor⟩

/-- Settles O13: MUL of encodings encodes the product. -/
theorem mulAnswersTheProductModuloTwoToTheWidth : Obligations.MulAnswersTheProductModuloTwoToTheWidth :=
  ⟨rfl, fun _ => dec_aluMul, fun _ _ _ => exec_direct_residue .mul (aluMul_enc _ _ _)⟩

/-- Settles O14: a zero divisor gives the 0 that division by 0 is in `Nat` and `Int`. -/
theorem divAnswersTheUnsignedQuotientOrZero : Obligations.DivAnswersTheUnsignedQuotientOrZero := by
  refine ⟨rfl, fun w A B => ?_, fun s a b => exec_direct_answers .div ((aluExec_div _ a b).trans ?_)⟩
  · rw [dec_aluDiv]
    split
    · next hzero => rw [hzero, Nat.div_zero]
    · rfl
  · split
    · next hzero => rw [hzero, Int.ediv_zero]
    · rfl

/-- Settles O7: `alu_encode` for each of the eight codes. -/
theorem aluSelectsTheOperationByItsCode : Obligations.AluSelectsTheOperationByItsCode := fun _ A B =>
  ⟨alu_encode .add A B, alu_encode .sub A B, alu_encode .and A B, alu_encode .or A B,
    alu_encode .xor A B, alu_encode .mul A B, alu_encode .div A B, alu_encode .nop A B, rfl, rfl⟩

/-- Settles O15: a lane keeps what its code selects, which is zero. -/
theorem nopAnswersZero : Obligations.NopAnswersZero :=
  ⟨rfl, fun _ _ _ => rfl, fun _ ln => congrArg (Lane.mk ln.A ln.B) (alu_encode .nop ln.A ln.B),
    fun _ _ _ => exec_direct_answers .nop (aluExec_nop _ _ _)⟩

end Sys2Proof.Machine
end

section
/-!
What a round leaves at lane `l` of warp `k` (42_lane_warp.md R153; 43_sm.md R172, R174): routing puts pair
`k·L + l` of the fitted chunk there, and `SM.round_eq` says what the whole SM holds.
-/

namespace Sys2Proof.Machine

/-- Entry `l` of group `k` is entry `k · size + l` of the whole (R172). -/
theorem groups_entry {α : Type} {size n : Nat} (f : List α) {k l : Nat} (hk : k < n) (hl : l < size) :
    ((groups size n f)[k]?).bind (·[l]?) = f[k * size + l]? := by
  rw [groups_getElem? size n f hk, Option.bind_some, List.getElem?_take_of_lt hl, List.getElem?_drop]

/-- Settles O18: pair `k·L + l` is entry `l` of group `k`, and by `SM.round_eq` the warps and the local
memory are the groups, each mapped entry by entry. -/
theorem roundLeavesEachLaneItsPairAndResult : Obligations.RoundLeavesEachLaneItsPairAndResult := by
  intro w c code chunk sm hshaped k hk l hl
  obtain ⟨p, hp⟩ : ∃ p, (fit c.CAP chunk)[k * c.L + l]? = some p := ⟨_, fit_getElem? _ _ (cell_lt hk hl)⟩
  obtain ⟨g, hg, hgl⟩ := Option.bind_eq_some_iff.1 ((groups_entry _ hk hl).trans hp)
  have hrow {β : Type} (f : List (OperandPair w) → β) :
      ((groups c.L c.WP (fit c.CAP chunk)).map f)[k]? = some (f g) := by simp [hg]
  have hcell {β : Type} (f : OperandPair w → β) : (g.map f)[l]? = some (f p) := by simp [hgl]
  rw [SM.round_eq code chunk hshaped]
  exact ⟨_, _, _, _, hrow _, hcell _, hrow _, hp, rfl, rfl, rfl, hcell _⟩

end Sys2Proof.Machine
end

section
/-!
LOAD (44_device.md R191 to R197): the step of a request whose operands make a workload, and of one whose
operands do not.
-/

namespace Sys2Proof.Machine

/-- The next request is well-formed: no other can be made (30_encoding.md R77). -/
theorem State.nextIs.wellFormed {s : State} {cmd : Command} {rest : List Request} (h : s.nextIs cmd rest) :
    cmd.wellFormed = true := by
  obtain ⟨hwf, -⟩ := h
  exact hwf

/-- LOAD in any phase, given what it stores (R197). -/
theorem step_load_ok {s : State} {opA opB : Operand} {name : OpName} {rest : List Request}
    {op : Operation} {st : OperandStore s.cfg.W} (hnext : s.nextIs (.load opA opB name) rest)
    (h : loadOperands s.cfg.W s.cfg.G opA opB name = .ok (op, st)) :
    step s = .next { s with
      pending := rest
      dev := s.dev.loadWorkload s.cfg.S op st
      responses := s.responses ++ [.device .success none] } :=
  (step_nextIs hnext).trans (deviceLoad_ok (s := { s with pending := rest }) h)

/-- LOAD in any phase, given the error it raises: no error of LOAD sets the fault bit, so the block keeps
its state (60_exceptions.md R241). -/
theorem step_load_error {s : State} {opA opB : Operand} {name : OpName} {rest : List Request} {e : Status}
    (hnext : s.nextIs (.load opA opB name) rest)
    (h : loadOperands s.cfg.W s.cfg.G opA opB name = .error e) :
    step s = .next { s with pending := rest, responses := s.responses ++ [.device e none] } := by
  have hbit : e.setsFault = false := by
    rcases loadOperands_error h with rfl | rfl <;> rfl
  rw [step_nextIs hnext, runCommand, deviceLoad_error (s := { s with pending := rest }) h,
    State.raise_of_not_setsFault _ _ hbit]
  rfl

/-- Operands of equal, non-zero length make a DOT workload, both 1-D or both 2-D (R193, R195). -/
theorem loadDot_eq_ok (w : Nat) {opA opB : Operand} {xs ys : List Int} (hops : dotOperands opA opB xs ys)
    (hA : opA.wellFormed = true) (hB : opB.wellFormed = true) (hlen : xs.length = ys.length)
    (hpos : 0 < xs.length) :
    loadDot w opA opB = .ok (.vectors (encodeAll w xs) (encodeAll w ys)) := by
  have hvec {na nb : Nat} (ha : xs.length = na) (hb : ys.length = nb) :
      loadVectors w na nb xs ys = .ok (.vectors (encodeAll w xs) (encodeAll w ys)) := by
    rw [loadVectors, if_neg (by omega), if_neg (by omega)]
  rcases hops with ⟨na, nb, rfl, rfl⟩ | ⟨ra, ca, rb, cb, rfl, rfl⟩
  · exact hvec (beq_iff_eq.1 hA) (beq_iff_eq.1 hB)
  · exact hvec (beq_iff_eq.1 hA) (beq_iff_eq.1 hB)

/-- Two 2-D operands with agreeing inner dimensions, no dimension 0 and an output that fits make a MATMUL
workload (R194 to R196). -/
theorem loadMatmul_eq_ok (w : Nat) {G m k n : Nat} (xs ys : List Int) (hm : 0 < m) (hk : 0 < k)
    (hn : 0 < n) (hG : m * n ≤ G) :
    loadMatmul w G (.mat m k xs) (.mat k n ys) =
      .ok (.matrices m k n (encodeAll w xs) (encodeAll w ys)) := by
  rw [loadMatmul, if_neg (not_not.2 rfl), if_neg (by omega), if_neg (by omega)]

/-- Settles O32: `loadDot_eq_ok` is what a DOT LOAD stores. -/
theorem loadDotStoresTheEncodedOperands : Obligations.LoadDotStoresTheEncodedOperands := by
  intro s opA opB xs ys rest hnext hops hlen hpos
  obtain ⟨hA, hB⟩ := Bool.and_eq_true_iff.1 hnext.wellFormed
  exact step_load_ok hnext (by rw [loadOperands, loadDot_eq_ok _ hops hA hB hlen hpos]; rfl)

/-- Settles O33: `loadMatmul_eq_ok` is what a MATMUL LOAD stores. -/
theorem loadMatmulStoresTheEncodedOperands : Obligations.LoadMatmulStoresTheEncodedOperands := by
  intro s m k n xs ys rest hnext hm hk hn hG
  exact step_load_ok hnext (by rw [loadOperands, loadMatmul_eq_ok _ _ _ hm hk hn hG]; rfl)

/-- Settles O35: the name is looked at before the operands. -/
theorem loadOfAnotherNameIsUnsupported : Obligations.LoadOfAnotherNameIsUnsupported :=
  fun _ _ _ _ _ hnext => step_load_error hnext rfl

end Sys2Proof.Machine
end

section
/-!
PARTITION (44_device.md R198 to R205): the entries of the pair stream, of the task map and of the chunk
table.
-/

namespace Sys2Proof.Machine

variable {w : Nat}

/-! ### DOT -/

theorem dotPairs_length {a b : List (Word w)} (hlen : a.length = b.length) :
    (dotPairs a b).length = a.length := by
  rw [dotPairs, List.length_zipWith, ← hlen, Nat.min_self]

/-- Pair `p` is made of the two operands' elements `p` (R199). -/
theorem dotPairs_getElem? {a b : List (Word w)} (hlen : a.length = b.length) {p : Nat}
    (hp : p < a.length) : (dotPairs a b)[p]? = some ⟨a.getD p 0, b.getD p 0⟩ := by
  have hp' : p < b.length := hlen ▸ hp
  simp [dotPairs, hp, hp']

/-- Task `p` is the flattened index `p` (R201, D20). -/
theorem dotTasks_getElem? {N p : Nat} (hp : p < N) : (dotTasks N)[p]? = some (.flat p) := by
  simp [dotTasks, hp]

/-- Row `k` of the chunk table is the chunk of SM `k` (R200). -/
theorem dotSplit_getElem? (N : Nat) {S k : Nat} (hk : k < S) :
    (dotSplit N S)[k]? = some (dotChunk N S k) := by
  simp [dotSplit, hk]

/-- Settles O36: the partition of two vectors, entry by entry. -/
theorem partitionDotBuildsTheStream : Obligations.PartitionDotBuildsTheStream := by
  intro s a b rest hnext hphase hop hst hlen
  have hpart : partitionOf s.cfg.S s.dev.operation s.dev.store =
      .ok (dotPairs a b, dotTasks a.length, dotSplit a.length s.cfg.S) := by rw [hop, hst]; rfl
  exact ⟨_, _, _, step_partition hnext hphase hpart, dotPairs_length hlen, by simp [dotTasks],
    by simp [dotSplit], fun _ hp => ⟨dotPairs_getElem? hlen hp, dotTasks_getElem? hp⟩,
    fun _ => dotSplit_getElem? _⟩

/-! ### MATMUL -/

@[simp] theorem matmulTasks_length (m k n : Nat) : (matmulTasks m k n).length = m * n * k := by
  simp [matmulTasks]

@[simp] theorem matmulPairs_length (m k n : Nat) (a b : List (Word w)) :
    (matmulPairs m k n a b).length = m * n * k := by
  simp [matmulPairs]

/-- Canonical order: output cells row-major, the reduction index inside (R202). -/
theorem matmulTasks_getElem? {m k n i j x : Nat} (hi : i < m) (hj : j < n) (hx : x < k) :
    (matmulTasks m k n)[(i * n + j) * k + x]? = some (.cell i j x) := by
  rw [matmulTasks, List.getElem?_map, List.getElem?_range (cell_lt (cell_lt hi hj) hx), Option.map_some,
    matmulTask_eq hj hx]

/-- The pair of coordinate `(i, j, x)` is `(A[i][x], B[x][j])` (R203). -/
theorem matmulPairs_getElem? {m k n i j x : Nat} (a b : List (Word w)) (hi : i < m) (hj : j < n)
    (hx : x < k) :
    (matmulPairs m k n a b)[(i * n + j) * k + x]? =
      some ⟨a.getD (i * k + x) 0, b.getD (x * n + j) 0⟩ := by
  rw [matmulPairs, List.getElem?_map, matmulTasks_getElem? hi hj hx]
  rfl

/-- Row `q` of the chunk table is the chunk of SM `q` (R204). -/
theorem matmulSplit_getElem? (T : Nat) {S q : Nat} (hq : q < S) :
    (matmulSplit T S)[q]? = some (matmulChunk T S q) := by
  simp [matmulSplit, hq]

/-- `ceil(T / S)` is below every `P` whose `S` runs cover `T`. -/
theorem ceilDiv_le {T S P : Nat} (hS : 0 < S) (h : T ≤ P * S) : ceilDiv T S ≤ P := by
  rw [ceilDiv, ← Nat.lt_succ_iff, Nat.div_lt_iff_lt_mul hS, Nat.succ_mul]
  omega

/-- `ceil(T / S)` is the least `P` whose `S` runs cover `T` (R204). -/
theorem ceilDiv_eq_of_least {T S P : Nat} (hS : 0 < S) (hcover : T ≤ P * S)
    (hleast : ∀ P', T ≤ P' * S → P ≤ P') : ceilDiv T S = P :=
  Nat.le_antisymm (ceilDiv_le hS hcover) (hleast _ (Nat.mul_comm S _ ▸ le_ceilDiv_mul T S hS))

/-- Settles O37: the partition of two matrices, entry by entry. -/
theorem partitionMatmulBuildsTheCanonicalStream : Obligations.PartitionMatmulBuildsTheCanonicalStream := by
  intro s m k n a b rest hnext hphase hop hst
  have hpart : partitionOf s.cfg.S s.dev.operation s.dev.store =
      .ok (matmulPairs m k n a b, matmulTasks m k n, matmulSplit (m * n * k) s.cfg.S) := by
    rw [hop, hst]; rfl
  refine ⟨_, _, _, step_partition hnext hphase hpart, matmulPairs_length .., matmulTasks_length ..,
    by simp [matmulSplit], fun i hi j hj x hx =>
      ⟨matmulTasks_getElem? hi hj hx, matmulPairs_getElem? a b hi hj hx⟩, fun P hcover hleast q hq => ?_⟩
  rw [matmulSplit_getElem? _ hq, matmulChunk, ceilDiv_eq_of_least s.cfg.hS hcover hleast]

end Sys2Proof.Machine
end

section
/-!
RECONSTRUCT (44_device.md R214 to R218): it answers what `Device.output` reads and writes nothing.
-/

namespace Sys2Proof.Machine

/-- PARTITION and RECONSTRUCT are in phase in every phase but EMPTY (R198, R214). -/
theorem Phase.hasWorkload_iff {p : Phase} : p.hasWorkload = true ↔ p ≠ .empty := by
  cases p <;> simp [Phase.hasWorkload]

/-- Settles O42: the data of a DOT workload is cell 0. -/
theorem reconstructDotAnswersCellZero : Obligations.ReconstructDotAnswersCellZero :=
  fun _ _ hnext hphase hop => step_reconstruct hnext hphase (Device.output_dot hop)

/-- Settles O43: the data of a MATMUL workload is its output cells, row by row. -/
theorem reconstructMatmulAnswersTheOutputCells : Obligations.ReconstructMatmulAnswersTheOutputCells :=
  fun _ _ _ _ _ _ _ hnext hphase hop hst hG =>
    step_reconstruct hnext hphase (Device.output_matmul hop hst hG)

/-- Settles O44: the first RECONSTRUCT keeps all that the second one reads. -/
theorem reconstructIsIdempotent : Obligations.ReconstructIsIdempotent := by
  refine ⟨fun s rest hinv hphase hpending => ?_, fun s t rest hnext hstep => ?_⟩
  · obtain ⟨hwf, hpending⟩ := hpending
    obtain ⟨-, -, hwork, -⟩ := hinv
    obtain ⟨data, hdata⟩ := Device.output_total (hwork.holds (Phase.hasWorkload_iff.2 hphase))
    refine ⟨_, data, step_reconstruct ⟨hwf, hpending⟩ hphase hdata, ?_⟩
    refine Eq.trans (step_reconstruct ⟨hwf, rfl⟩ hphase hdata) ?_
    rw [List.append_assoc, List.singleton_append]
  · rw [step_nextIs hnext] at hstep
    rcases deviceReconstruct_cases hstep with ⟨-, data, -, rfl⟩ | ⟨-, rfl⟩
    · exact .inl ⟨data, rfl⟩
    · exact .inr (State.raise_sequenceError _)

end Sys2Proof.Machine
end

section
/-!
EXECUTE's refusals (44_device.md R206; 30_encoding.md R75), in the order of 60_exceptions.md R248.
-/

namespace Sys2Proof.Machine

/-- EXECUTE is in phase once the workload is partitioned (R206, D13, D32). -/
theorem Phase.hasPartition_iff {p : Phase} : p.hasPartition = true ↔ p = .partitioned ∨ p = .executed := by
  cases p <;> simp [Phase.hasPartition]

theorem Phase.hasPartition_eq_false_iff {p : Phase} :
    p.hasPartition = false ↔ p = .empty ∨ p = .loaded := by
  cases p <;> simp [Phase.hasPartition]

/-- No two instructions have one code (30_encoding.md R72). -/
theorem encode_injective : Function.Injective encode := fun i j h => by
  rw [← Decoded.op.injEq, ← decodeBits_encode i, h, decodeBits_encode]

/-- Settles O23: the phase is checked first, the code second. -/
theorem executeRefusesOutOfPhaseThenEveryCodeButMul :
    Obligations.ExecuteRefusesOutOfPhaseThenEveryCodeButMul := by
  refine ⟨fun s i hport hphase => ?_, fun s i hport hi hphase => ?_⟩
  · rw [exec_device i hport, deviceExecute_outOfPhase (Phase.hasPartition_eq_false_iff.2 hphase),
      State.raise_sequenceError]
    rfl
  · rw [exec_device i hport,
      deviceExecute_unsupported (Phase.hasPartition_iff.2 hphase) (encode_injective.ne hi),
      State.raise_of_not_setsFault _ _ rfl]
    rfl

end Sys2Proof.Machine
end

section
/-!
EXECUTE's result stream (44_device.md R207, R208): what each SM contributes, and what stands at a place.
-/

namespace Sys2Proof.Machine

variable {w : Nat}

@[simp] theorem smCompute_length (c : Config) (chunk : List (OperandPair w)) (code : Code) :
    (smCompute c chunk code).length = c.CAP := by
  rw [smCompute, List.length_map, fit_length]

/-- The result sequence that a round leaves is the SM's output as a function (43_sm.md R174, R176). -/
theorem SM.flat_round {c : Config} {sm : SM w} (code : Code) (chunk : List (OperandPair w))
    (h : sm.shaped c) : (sm.round c code chunk).flat = smCompute c chunk code := by
  rw [SM.flat, SM.round_localMem chunk code h, ← List.map_flatten,
    groups_flatten _ _ _ (fit_length c.CAP chunk), smCompute]

/-- The result stream joins the outputs of the SMs on their chunks, whatever the arena held (R208; 10_state.md
R37). -/
theorem resultStream_dispatch {c : Config} {d : Device w} (code : Code) (h : shapedArena c d.sms)
    (hlen : d.chunks.length = c.S) :
    resultStream (d.dispatch c code) =
      (d.chunks.map fun ch => smCompute c (chunkPairs d.pairs ch) code).flatten := by
  obtain ⟨hS, hshaped⟩ := h
  rw [resultStream]
  congr 1
  refine List.ext_getElem (by simp [Device.dispatch, hS, hlen]) fun q _ _ => ?_
  simp only [Device.dispatch, List.getElem_map, List.getElem_zipWith]
  exact SM.flat_round _ _ (hshaped _ (List.getElem_mem _))

/-- Entry `q·CAP + u` of the result stream is the result of pair `u` of chunk `q`, or of padding (R208). -/
theorem resultStream_dispatch_getElem? {c : Config} {d : Device w} (code : Code)
    (h : shapedArena c d.sms) (hlen : d.chunks.length = c.S) {q u : Nat} {ch : Chunk}
    (hq : d.chunks[q]? = some ch) (hu : u < c.CAP) {pr : OperandPair w}
    (hpr : (chunkPairs d.pairs ch).getD u (paddingPair w) = pr) :
    (resultStream (d.dispatch c code))[q * c.CAP + u]? = some (alu pr.A pr.B code) := by
  have hcap : ∀ l ∈ d.chunks.map fun ch => smCompute c (chunkPairs d.pairs ch) code,
      l.length = c.CAP := by
    intro l hl
    obtain ⟨_, -, rfl⟩ := List.mem_map.1 hl
    exact smCompute_length ..
  rw [resultStream_dispatch code h hlen, flatten_getElem? _ _ hcap q u hu, List.getElem?_map, hq,
    Option.map_some, Option.bind_some, smCompute_getElem? c _ code hu, hpr]

end Sys2Proof.Machine
end

section
/-!
EXECUTE DOT (44_device.md R209, R213).
-/

namespace Sys2Proof.Machine

/-- EXECUTE of MUL in phase, given the memory it leaves (R213). -/
theorem exec_mul_device {s : State} {m : Memory} (hport : s.port = .device)
    (hphase : s.dev.phase = .partitioned ∨ s.dev.phase = .executed)
    (h : s.dev.accumulateInto s.cfg (resultStream (s.dev.dispatch s.cfg (encode .mul))) = .ok m) :
    exec .mul s = .next { s with
      dev := { s.dev with sms := s.dev.dispatch s.cfg (encode .mul), gmem := m, phase := .executed }
      responses := s.responses ++ [.device .success none] } :=
  (exec_device .mul hport).trans
    (deviceExecute_ok (Phase.hasPartition_iff.2 hphase) rfl (Device.execute_ok h))

/-- A DOT workload's results go to cell 0, which always exists (R209, D14). -/
theorem Device.accumulateInto_dot {w : Nat} {c : Config} {d : Device w} (hop : d.operation = .dot)
    (rs : List (Word w)) : d.accumulateInto c rs = .ok (d.gmem.write 0 (dotSum rs)) := by
  rw [Device.accumulateInto, hop]
  exact memWrite_eq_ok.2 ⟨c.hG, rfl⟩

/-- Settles O25: one write to cell 0, of the sum of the stream that `resultStream_dispatch` gives. -/
theorem executeDotWritesTheSumToCellZero : Obligations.ExecuteDotWritesTheSumToCellZero := by
  intro s hinv hport hphase hop
  have hlen := Device.Inv.chunks_length hinv
  obtain ⟨⟨hwf, -⟩, harena, -, -⟩ := hinv
  refine ⟨_, exec_mul_device hport hphase (Device.accumulateInto_dot hop _), Memory.write_wf _ _ hwf, ?_,
    fun cell hcell => Memory.read_write_other _ hcell⟩
  rw [Memory.read_write_same _ _ hwf, resultStream_dispatch _ harena hlen]
  rfl

end Sys2Proof.Machine
end

section
/-!
EXECUTE MATMUL, accumulation (44_device.md R210, R211): what canonical index `p` adds to one output cell.
-/

namespace Sys2Proof.Machine

section Accumulators
variable {w : Nat} (cap n : Nat) (chunks : List Chunk) (rs : List (Word w))

/-- What canonical index `p` of coordinate `task` adds to output cell `(i, j)`: its result, if it is real
and its task is that cell, else nothing (R211; 90_conflicts.md C5). -/
def addend (i j : Nat) (task : Option TaskCoord) (p : Nat) : Nat :=
  match task, realResult cap chunks rs p with
  | some (.cell i' j' _), some r => if i' = i ∧ j' = j then dec r else 0
  | _, _ => 0

/-- A real index adds its result to its own output cell only. -/
theorem addend_some {i j p : Nat} {r : Word w} (hr : realResult cap chunks rs p = some r)
    (i' j' x : Nat) :
    addend cap chunks rs i j (some (.cell i' j' x)) p = if i' = i ∧ j' = j then dec r else 0 := by
  simp only [addend, hr]

/-- Padding and dropped indices add nothing. -/
theorem addend_none {i j p : Nat} (hr : realResult cap chunks rs p = none) (task : Option TaskCoord) :
    addend cap chunks rs i j task p = 0 := by
  simp only [addend, hr]

/-- One step of the accumulation adds to each accumulator the index's addend. -/
theorem accumulate_getElem? (acc : List Cell) {i j i' j' : Nat} (hj : j < n) (hj' : j' < n) (x p : Nat) :
    (accumulate cap n chunks rs acc (.cell i' j' x, p))[i * n + j]? =
      acc[i * n + j]?.map (· + BitVec.ofNat 32 (addend cap chunks rs i j (some (.cell i' j' x)) p)) := by
  cases hr : realResult cap chunks rs p with
  | none => simp [accumulate, hr, addend_none cap chunks rs hr]
  | some r =>
    rw [addend_some cap chunks rs hr]
    simp only [accumulate, hr, List.getElem?_modify]
    by_cases hcell : i' = i ∧ j' = j
    · obtain ⟨rfl, rfl⟩ := hcell
      simp
    · have hne : i' * n + j' ≠ i * n + j := fun heq => hcell (cell_inj hj' hj heq)
      simp [hcell, hne]

/-- The accumulation takes the tasks in order: the last one is accumulated last. -/
theorem matmulSums_concat (m : Nat) (tasks : List TaskCoord) (task : TaskCoord) :
    matmulSums cap m n (tasks ++ [task]) chunks rs =
      accumulate cap n chunks rs (matmulSums cap m n tasks chunks rs) (task, tasks.length) := by
  simp [matmulSums, List.zipIdx_append]

/-- Each accumulator is the sum of the addends of all indices (R211). -/
theorem matmulSums_getElem? {m : Nat} (tasks : List TaskCoord)
    (htasks : ∀ task ∈ tasks, ∃ i j x, task = .cell i j x ∧ i < m ∧ j < n) {i j : Nat} (hi : i < m)
    (hj : j < n) :
    (matmulSums cap m n tasks chunks rs)[i * n + j]? = some (BitVec.ofNat 32
      (∑ p ∈ Finset.range tasks.length, addend cap chunks rs i j tasks[p]? p)) := by
  induction tasks using List.reverseRecOn with
  | nil => simp [matmulSums, cell_lt hi hj]
  | append_singleton tasks task ih =>
    obtain ⟨i', j', x, rfl, -, hj'⟩ := htasks task (by simp)
    have hbefore : ∑ p ∈ Finset.range tasks.length,
          addend cap chunks rs i j (tasks ++ [.cell i' j' x])[p]? p =
        ∑ p ∈ Finset.range tasks.length, addend cap chunks rs i j tasks[p]? p :=
      Finset.sum_congr rfl fun p hp => by rw [List.getElem?_append_left (Finset.mem_range.1 hp)]
    rw [matmulSums_concat, accumulate_getElem? cap n chunks rs _ hj hj',
      ih fun task ht => htasks task (List.mem_append_left _ ht), Option.map_some, ← BitVec.ofNat_add,
      List.length_append, List.length_singleton, Finset.sum_range_succ, hbefore,
      List.getElem?_concat_length]

end Accumulators

/-- Settles O27: `addend` is the statement's summand. -/
theorem matmulAccumulatorsSumTheRealResults : Obligations.MatmulAccumulatorsSumTheRealResults :=
  fun _ cap _ n tasks chunks rs htasks _ hi _ hj =>
    matmulSums_getElem? cap n chunks rs tasks htasks hi hj

end Sys2Proof.Machine
end

section
/-!
EXECUTE MATMUL, the real results (44_device.md R208, R210): where canonical index `p` lies in the MATMUL
split, and what its result is.
-/

namespace Sys2Proof.Machine

/-- Chunk `q` of the MATMUL split holds exactly the canonical indices `p` with `p div P = q`. -/
theorem mem_matmulChunk_iff {T S p q : Nat} (hP : 0 < ceilDiv T S) (hp : p < T) :
    ((matmulChunk T S q).start ≤ p ∧ p < (matmulChunk T S q).start + (matmulChunk T S q).len) ↔
      p / ceilDiv T S = q := by
  rw [← matmulChunk_start_succ, Nat.div_eq_iff hP]
  simp only [matmulChunk, Nat.succ_mul]
  omega

/-- The chunk of canonical index `p` starts at the multiple of `P` below `p`. -/
theorem matmulChunk_start_div {T S p : Nat} (hp : p < T) :
    (matmulChunk T S (p / ceilDiv T S)).start = p / ceilDiv T S * ceilDiv T S :=
  Nat.min_eq_left ((Nat.div_mul_le_self p _).trans hp.le)

/-- Every canonical index lies in the chunk of an SM. -/
theorem div_ceilDiv_lt {T S p : Nat} (hS : 0 < S) (hp : p < T) : p / ceilDiv T S < S := by
  rw [Nat.div_lt_iff_lt_mul (ceilDiv_pos hS (Nat.zero_lt_of_lt hp))]
  exact hp.trans_le (le_ceilDiv_mul T S hS)

/-- Canonical index `p` lies in the chunk of SM `p div P` (R210). -/
theorem smOf_matmulSplit {T S p : Nat} (hS : 0 < S) (hp : p < T) :
    smOf (matmulSplit T S) p = some (p / ceilDiv T S) := by
  have hq := div_ceilDiv_lt hS hp
  have hmem (q : Nat) := mem_matmulChunk_iff (q := q) (ceilDiv_pos hS (Nat.zero_lt_of_lt hp)) hp
  rw [smOf, List.findIdx?_eq_some_iff_getElem]
  refine ⟨by simpa [matmulSplit] using hq, ?_, fun q hlt => ?_⟩
  · simpa [matmulSplit] using (hmem _).2 rfl
  · simpa [matmulSplit] using mt (hmem q).1 hlt.ne'

/-- Canonical index `p` stands at place `p mod P` of its chunk, and has a result exactly when that is below
the capacity (R210). -/
theorem realResult_matmulSplit {w T S p : Nat} (cap : Nat) (rs : List (Word w)) (hS : 0 < S)
    (hp : p < T) :
    realResult cap (matmulSplit T S) rs p =
      if p % ceilDiv T S < cap then rs[p / ceilDiv T S * cap + p % ceilDiv T S]? else none := by
  have hplace : p - p / ceilDiv T S * ceilDiv T S = p % ceilDiv T S :=
    Nat.mod_eq_sub_div_mul.symm
  rw [realResult, smOf_matmulSplit hS hp]
  simp only [List.getD_eq_getElem?_getD, matmulSplit_getElem? T (div_ceilDiv_lt hS hp),
    Option.getD_some, matmulChunk_start_div hp, hplace]

/-- After a dispatch over the MATMUL split the real results are the ALU's on the pairs: index `p`, whose pair
is `pr`, has one unless its SM dropped it. -/
theorem realResult_dispatch {w : Nat} {c : Config} {d : Device w} (code : Code)
    (h : shapedArena c d.sms) {T : Nat} (hsplit : d.chunks = matmulSplit T c.S) {p : Nat} (hp : p < T)
    {pr : OperandPair w} (hpr : d.pairs[p]? = some pr) :
    realResult c.CAP d.chunks (resultStream (d.dispatch c code)) p =
      if p % ceilDiv T c.S < c.CAP then some (alu pr.A pr.B code) else none := by
  have hchunk : d.chunks[p / ceilDiv T c.S]? = some (matmulChunk T c.S (p / ceilDiv T c.S)) := by
    rw [hsplit, matmulSplit_getElem? T (div_ceilDiv_lt c.hS hp)]
  have hend := ((mem_matmulChunk_iff (ceilDiv_pos c.hS (Nat.zero_lt_of_lt hp)) hp).2 rfl).2
  have hplace : (matmulChunk T c.S (p / ceilDiv T c.S)).start + p % ceilDiv T c.S = p := by
    rw [matmulChunk_start_div hp, Nat.div_add_mod']
  have hentry : (chunkPairs d.pairs (matmulChunk T c.S (p / ceilDiv T c.S))).getD
      (p % ceilDiv T c.S) (paddingPair w) = pr := by
    rw [List.getD_eq_getElem?_getD, chunkPairs_getElem?, if_pos (by omega), hplace, hpr, Option.getD_some]
  rw [hsplit, realResult_matmulSplit _ _ c.hS hp]
  split
  · next hcap =>
    exact resultStream_dispatch_getElem? code h (by simp [hsplit, matmulSplit]) hchunk hcap hentry
  · rfl

end Sys2Proof.Machine
end

section
/-!
EXECUTE MATMUL, output (44_device.md R211 to R213): the output cells as sums of products.
-/

namespace Sys2Proof.Machine

/-- Over the canonical order only the `k` indices of output cell `(i, j)` add to its accumulator. -/
theorem sum_addend_matmulTasks {w : Nat} (cap : Nat) (chunks : List Chunk) (rs : List (Word w))
    {m k n i j : Nat} (hi : i < m) (hj : j < n) :
    ∑ p ∈ Finset.range (m * n * k), addend cap chunks rs i j (matmulTasks m k n)[p]? p =
      ∑ x ∈ Finset.range k,
        addend cap chunks rs i j (some (.cell i j x)) ((i * n + j) * k + x) := by
  rw [sum_over_rows]
  refine (Finset.sum_eq_single_of_mem _ (Finset.mem_range.2 (cell_lt hi hj)) fun t ht hne => ?_).trans
    (Finset.sum_congr rfl fun x hx => by rw [matmulTasks_getElem? hi hj (Finset.mem_range.1 hx)])
  obtain ⟨i', hi', j', hj', rfl⟩ : ∃ i' < m, ∃ j' < n, t = i' * n + j' :=
    ⟨t / n, (Nat.div_lt_iff_lt_mul (Nat.zero_lt_of_lt hj)).2 (Finset.mem_range.1 ht), t % n,
      Nat.mod_lt _ (Nat.zero_lt_of_lt hj), (Nat.div_add_mod' t n).symm⟩
  refine Finset.sum_eq_zero fun x hx => ?_
  rw [matmulTasks_getElem? hi' hj' (Finset.mem_range.1 hx)]
  cases hr : realResult cap chunks rs ((i' * n + j') * k + x) with
  | none => exact addend_none cap chunks rs hr _
  | some r =>
    rw [addend_some cap chunks rs hr, if_neg]
    rintro ⟨rfl, rfl⟩
    exact hne rfl

/-- A MATMUL workload's results go to the output cells, which all exist (R212): each holds its accumulator,
every other cell is kept. -/
theorem Device.accumulateInto_matmul {w : Nat} {c : Config} {d : Device w} {m k n : Nat}
    {a b : List (Word w)} (hop : d.operation = .matmul) (hst : d.store = .matrices m k n a b)
    (hG : m * n ≤ c.G) (hn : 0 < n) (hwf : d.gmem.wf) (rs : List (Word w)) :
    ∃ gmem : Memory, d.accumulateInto c rs = .ok gmem ∧ gmem.wf ∧
      ∀ cell, gmem.read cell = if cell < m * n then
        (matmulSums c.CAP m n d.taskMap d.chunks rs).getD cell 0 else d.gmem.read cell := by
  rw [Device.accumulateInto, hop, hst]
  dsimp only
  generalize matmulSums c.CAP m n d.taskMap d.chunks rs = acc
  have hwrites : ∀ e ∈ matmulWrites m n acc, e.1 < c.G ∧ e.2 = acc.getD e.1 0 := by
    intro e he
    obtain ⟨i, hi, j, hj, rfl⟩ := mem_matmulWrites.1 he
    exact ⟨(cell_lt hi hj).trans_le hG, rfl⟩
  refine ⟨_, memWriteAll_eq_ok _ _ fun e he => (hwrites e he).1, Memory.foldl_write_wf _ _ hwf,
    fun cell => ?_⟩
  rw [Memory.foldl_write_read (acc.getD · 0) _ _ hwf fun e he => (hwrites e he).2]
  simp only [mem_matmulWrites_fst hn]

/-- After an EXECUTE of MUL, index `p` of output cell `(i, j)` adds the truncated product of its pair `pr`,
or nothing if its SM dropped it. -/
theorem addend_dispatch_mul {w : Nat} {c : Config} {d : Device w} (h : shapedArena c d.sms) {T : Nat}
    (hsplit : d.chunks = matmulSplit T c.S) {p : Nat} (hp : p < T) {pr : OperandPair w}
    (hpr : d.pairs[p]? = some pr) (i j x : Nat) :
    addend c.CAP d.chunks (resultStream (d.dispatch c (encode .mul))) i j (some (.cell i j x)) p =
      if p % ceilDiv T c.S < c.CAP then dec pr.A * dec pr.B % 2 ^ w else 0 := by
  have hreal := realResult_dispatch (encode .mul) h hsplit hp hpr
  split at hreal
  · next hkept =>
    rw [addend_some _ _ _ hreal, if_pos ⟨rfl, rfl⟩, if_pos hkept, alu_encode]
    exact dec_aluMul _ _
  · next hdropped => rw [addend_none _ _ _ hreal, if_neg hdropped]

/-- What the invariant says of a partitioned MATMUL workload (R194 to R196, R205). -/
theorem Device.Inv.matmul_partition {w : Nat} {c : Config} {d : Device w} {m k n : Nat}
    {a b : List (Word w)} (h : d.Inv c) (hp : d.phase.hasPartition = true) (hop : d.operation = .matmul)
    (hst : d.store = .matrices m k n a b) :
    (0 < k ∧ 0 < n ∧ m * n ≤ c.G) ∧ d.pairs = matmulPairs m k n a b ∧ d.taskMap = matmulTasks m k n ∧
      d.chunks = matmulSplit (m * n * k) c.S := by
  obtain ⟨-, -, hwork, hpart⟩ := h
  have hholds := hwork.holds (Phase.hasWorkload_of_hasPartition hp)
  have hparts := hpart.partitionOf_eq hp
  rw [hop, hst] at hholds hparts
  obtain ⟨-, hk, hn, hG, -, -⟩ := hholds
  exact ⟨⟨hk, hn, hG⟩, by simpa [partitionOf, eq_comm] using hparts⟩

/-- Settles O28: the writes are `Device.accumulateInto_matmul`, and each accumulator is the sum of its own
`k` addends, which are `addend_dispatch_mul`. -/
theorem executeMatmulWritesEveryOutputCell : Obligations.ExecuteMatmulWritesEveryOutputCell := by
  intro s m k n a b hinv hport hphase hop hst
  obtain ⟨⟨hk, hn, hG⟩, hpairs, htasks, hchunks⟩ :=
    hinv.matmul_partition (Phase.hasPartition_iff.2 hphase) hop hst
  obtain ⟨⟨hwf, -⟩, harena, -, -⟩ := hinv
  obtain ⟨gmem, hacc, hgmem, hread⟩ := Device.accumulateInto_matmul hop hst hG hn hwf
    (resultStream (s.dev.dispatch s.cfg (encode .mul)))
  refine ⟨gmem, exec_mul_device hport hphase hacc, hgmem, fun i hi j hj => ?_,
    fun cell hcell => (hread cell).trans (if_neg hcell.not_gt)⟩
  rw [hread, if_pos (cell_lt hi hj), List.getD_eq_getElem?_getD, htasks,
    matmulSums_getElem? _ _ _ _ _ (matmulTasks_mem hk hn) hi hj, Option.getD_some, matmulTasks_length,
    sum_addend_matmulTasks _ _ _ hi hj]
  congr 1
  refine Finset.sum_congr rfl fun x hx => ?_
  have hx := Finset.mem_range.1 hx
  exact addend_dispatch_mul harena hchunks (cell_lt (cell_lt hi hj) hx)
    (hpairs ▸ matmulPairs_getElem? a b hi hj hx) i j x

end Sys2Proof.Machine
end

section
/-!
The errors (60_exceptions.md R240 to R245): what raises each one, and what it leaves unchanged.
-/

namespace Sys2Proof.Machine

/-! ### ShapeError -/

/-- A DOT workload has two operands of one length, and an element (44_device.md R193, R195). -/
theorem loadVectors_eq_error (w : Nat) {na nb : Nat} (da db : List Int) (h : na ≠ nb ∨ na = 0) :
    loadVectors w na nb da db = .error .shapeError := by
  rw [loadVectors]
  split
  · rfl
  · next hlen => rw [if_pos (h.resolve_left hlen)]

/-- A MATMUL workload has one inner dimension, no dimension 0 and an output that fits (44_device.md R194 to
R196). -/
theorem loadMatmul_eq_error (w : Nat) {G m k k' n : Nat} (da db : List Int)
    (h : k ≠ k' ∨ (m = 0 ∨ k = 0 ∨ n = 0) ∨ G < m * n) :
    loadMatmul w G (.mat m k da) (.mat k' n db) = .error .shapeError := by
  rw [loadMatmul]
  split
  · rfl
  · next hinner =>
    split
    · rfl
    · next hdim => rw [if_pos ((h.resolve_left hinner).resolve_left hdim)]

/-- MATMUL takes no 1-D operand (44_device.md R194). -/
theorem loadMatmul_vec (w G : Nat) {opA opB : Operand} {len : Nat} {data : List Int}
    (h : opA = .vec len data ∨ opB = .vec len data) : loadMatmul w G opA opB = .error .shapeError := by
  rcases h with rfl | rfl
  · rfl
  · cases opA <;> rfl

/-- A DOT LOAD raises what the check of its operands raises. -/
theorem loadOperands_dot_error {w G : Nat} {opA opB : Operand} {e : Status}
    (h : loadDot w opA opB = .error e) : loadOperands w G opA opB .dot = .error e := by
  rw [loadOperands, h]
  rfl

/-- A MATMUL LOAD raises what the check of its operands raises. -/
theorem loadOperands_matmul_error {w G : Nat} {opA opB : Operand} {e : Status}
    (h : loadMatmul w G opA opB = .error e) : loadOperands w G opA opB .matmul = .error e := by
  rw [loadOperands, h]
  rfl

/-- Settles O34: each cause fails a check of the operands, and `step_load_error` is what that does. -/
theorem loadRaisesShapeErrorForEachCause : Obligations.LoadRaisesShapeErrorForEachCause := by
  intro s opA opB name rest hnext hcause
  refine step_load_error hnext ?_
  rcases hcause with ⟨rfl, na, nb, da, db, rfl, rfl, hlen⟩ |
    ⟨rfl, ra, ca, rb, cb, da, db, rfl, rfl, hcount⟩ | ⟨rfl, na, ra, ca, da, db, hmixed⟩ |
    ⟨rfl, na, d, hvec⟩ | ⟨rfl, m, k, k', n, da, db, rfl, rfl, hinner⟩ | ⟨rfl, da, db, hempty⟩ |
    ⟨rfl, m, k, n, da, db, rfl, rfl, hdim⟩ | ⟨rfl, m, k, n, da, db, rfl, rfl, hlarge⟩
  · exact loadOperands_dot_error (loadVectors_eq_error _ da db (.inl hlen))
  · exact loadOperands_dot_error (loadVectors_eq_error _ da db (.inl hcount))
  · rcases hmixed with ⟨rfl, rfl⟩ | ⟨rfl, rfl⟩ <;> exact loadOperands_dot_error rfl
  · exact loadOperands_matmul_error (loadMatmul_vec _ _ hvec)
  · exact loadOperands_matmul_error (loadMatmul_eq_error _ da db (.inl hinner))
  · rcases hempty with ⟨rfl, rfl⟩ | ⟨ra, ca, rb, cb, rfl, rfl, hA, -⟩
    · exact loadOperands_dot_error (loadVectors_eq_error _ da db (.inr rfl))
    · exact loadOperands_dot_error (loadVectors_eq_error _ da db (.inr hA))
  · exact loadOperands_matmul_error (loadMatmul_eq_error _ da db (.inr (.inl hdim)))
  · exact loadOperands_matmul_error (loadMatmul_eq_error _ da db (.inr (.inr hlarge)))

/-! ### What an error status says of the step that answers it -/

/-- A step that answers an error status has the effect of an error: a command that can raise it, no data,
and no field changed but the port and the fault bit (60_exceptions.md R241). -/
theorem StepEffect.eq_of_error {s t : State} {cmd : Command} {rest : List Request} {e : Status}
    {data : Option Data} (h : StepEffect s cmd rest t) (he : e ≠ .success)
    (hresp : t.responses = s.responses ++ [.device e data]) :
    e.answers cmd ∧ data = none ∧ t = { s with
      pending := rest
      port := t.port
      dev := { s.dev with fault := s.dev.fault || e.setsFault }
      responses := s.responses ++ [.device e none] } := by
  have hsuccess {data' : Option Data}
      (h' : t.responses = s.responses ++ [.device .success data']) : e = .success := by
    rw [hresp, List.append_cancel_left_eq, List.singleton_inj, Response.device.injEq] at h'
    exact h'.1
  cases h with
  | load _ _ _ _ _ _ _ ht => exact absurd (hsuccess (by rw [ht])) he
  | partition _ _ _ _ _ _ ht => exact absurd (hsuccess (by rw [ht])) he
  | execute _ _ _ _ ht => exact absurd (hsuccess (by rw [ht])) he
  | reconstruct _ _ _ _ ht => exact absurd (hsuccess (by rw [ht])) he
  | alu _ _ _ _ ht => simp [ht] at hresp
  | error e' _ _ hc _ ht =>
    subst ht
    rw [List.append_cancel_left_eq, List.singleton_inj, Response.device.injEq] at hresp
    obtain ⟨rfl, rfl⟩ := hresp
    exact ⟨hc, rfl, rfl⟩

/-- Settles O59: `StepEffect.eq_of_error`, where the errors that set the fault bit are the
SequenceErrors. -/
theorem errorsChangeNothing : Obligations.ErrorsChangeNothing := by
  intro s t cmd rest e data hnext hstep he hresp
  have hbit : decide (e = .sequenceError) = e.setsFault := by
    rw [Bool.eq_iff_iff, decide_eq_true_iff, Status.setsFault_iff]
  rw [hbit]
  exact ((step_effect hnext hstep).eq_of_error he hresp).2

/-- Settles O60: the codes are `Status.code`'s, and `StepEffect.eq_of_error` names the commands of each
error. -/
theorem eachStatusComesOnlyFromItsCommands : Obligations.EachStatusComesOnlyFromItsCommands := by
  refine ⟨⟨rfl, rfl, rfl, rfl, rfl⟩, fun s t cmd rest e data hnext hstep hresp => ?_⟩
  by_cases he : e = .success
  · subst he
    trivial
  · exact ((step_effect hnext hstep).eq_of_error he hresp).1

/-! ### SequenceError -/

/-- PARTITION and RECONSTRUCT are out of phase in EMPTY only (44_device.md R198, R214). -/
theorem Phase.hasWorkload_eq_false_iff {p : Phase} : p.hasWorkload = false ↔ p = .empty := by
  cases p <;> simp [Phase.hasWorkload]

/-- The success of a Device command answers no error status. -/
theorem State.succeed_responses_ne {s : State} {data data' : Option Data} {e : Status} (he : e ≠ .success) :
    (s.succeed data).responses ≠ s.responses ++ [.device e data'] := by
  simp [he.symm]

section OutOfPhase
variable {s t : State} {rest : List Request} {data : Option Data}

/-- PARTITION answers SequenceError in phase EMPTY only. -/
theorem devicePartition_sequenceError (h : devicePartition s = .next t)
    (hresp : t.responses = s.responses ++ [.device .sequenceError data]) : s.dev.phase = .empty := by
  rcases devicePartition_cases h with ⟨-, d, -, rfl⟩ | ⟨hp, -⟩
  · exact absurd hresp (State.succeed_responses_ne (s := s.setDev d) (by decide))
  · exact Phase.hasWorkload_eq_false_iff.1 hp

/-- RECONSTRUCT answers SequenceError in phase EMPTY only. -/
theorem deviceReconstruct_sequenceError (h : deviceReconstruct s = .next t)
    (hresp : t.responses = s.responses ++ [.device .sequenceError data]) : s.dev.phase = .empty := by
  rcases deviceReconstruct_cases h with ⟨-, d, -, rfl⟩ | ⟨hp, -⟩
  · exact absurd hresp (State.succeed_responses_ne (by decide))
  · exact Phase.hasWorkload_eq_false_iff.1 hp

/-- EXECUTE answers SequenceError in phase EMPTY or LOADED only: in phase a code it refuses is
unsupported. -/
theorem deviceExecute_sequenceError {code : Code} (h : deviceExecute code s = .next t)
    (hresp : t.responses = s.responses ++ [.device .sequenceError data]) :
    s.dev.phase = .empty ∨ s.dev.phase = .loaded := by
  rcases deviceExecute_cases h with ⟨-, -, d, -, rfl⟩ | ⟨-, -, rfl⟩ | ⟨hp, -⟩
  · exact absurd hresp (State.succeed_responses_ne (s := s.setDev d) (by decide))
  · simp at hresp
  · exact Phase.hasPartition_eq_false_iff.1 hp

end OutOfPhase

/-- Settles O41: each command checks its phase first, and a SequenceError comes from that check alone. -/
theorem sequenceErrorHasTheseCauses : Obligations.SequenceErrorHasTheseCauses := by
  refine ⟨fun s cmd rest hnext hcmd hphase => ?_, fun s code rest hnext hphase => ?_,
    fun s t cmd rest data hnext hstep hresp => ?_⟩
  · have hp := Phase.hasWorkload_eq_false_iff.2 hphase
    rw [step_nextIs hnext]
    rcases hcmd with rfl | rfl
    · exact (devicePartition_empty (s := { s with pending := rest }) hp).trans
        (congrArg _ (State.raise_sequenceError _))
    · exact (deviceReconstruct_empty (s := { s with pending := rest }) hp).trans
        (congrArg _ (State.raise_sequenceError _))
  · have hp := Phase.hasPartition_eq_false_iff.2 hphase
    rw [step_execute hnext]
    exact (deviceExecute_outOfPhase (s := { s with pending := rest, port := .device }) hp).trans
      (congrArg _ (State.raise_sequenceError _))
  · obtain ⟨hcmd, -⟩ := (step_effect hnext hstep).eq_of_error (by decide) hresp
    rcases hcmd with rfl | rfl | ⟨code, rfl⟩
    · rw [step_nextIs hnext] at hstep
      exact .inl ⟨.inl rfl, devicePartition_sequenceError (s := { s with pending := rest }) hstep hresp⟩
    · rw [step_nextIs hnext] at hstep
      exact .inl ⟨.inr rfl, deviceReconstruct_sequenceError (s := { s with pending := rest }) hstep hresp⟩
    · rw [step_execute hnext] at hstep
      exact .inr ⟨⟨code, rfl⟩,
        deviceExecute_sequenceError (s := { s with pending := rest, port := .device }) hstep hresp⟩

end Sys2Proof.Machine
end

section
/-!
The adder chain (40_adder_chain.md R100 to R105) and the range of every ALU answer (41_alu.md R124).
-/

namespace Sys2Proof.Machine

/-- Settles O4: an adder stage is a function of three bits. -/
theorem adderStageCountsItsInputs : Obligations.AdderStageCountsItsInputs := by
  refine ⟨fun _ _ => rfl, fun a b cin => ⟨rfl, ?_⟩⟩
  revert a b cin
  decide

/-- Settles O5: `rippleAdd_exact` is division with remainder by `2^w`, as the sum output is below `2^w`. -/
theorem rippleAdderAddsModuloTwoToTheWidth : Obligations.RippleAdderAddsModuloTwoToTheWidth := by
  intro w A B
  have hlt := dec_lt (rippleAdd A B).1
  rw [← rippleAdd_exact A B]
  constructor
  · rw [Nat.add_mul_mod_self_left, Nat.mod_eq_of_lt hlt]
  · rw [Nat.add_mul_div_left _ _ (Nat.two_pow_pos w), Nat.div_eq_of_lt hlt, Nat.zero_add]

/-- Settles O6: `twos` is the negation of words. -/
theorem twosComplementNegatesModuloTwoToTheWidth : Obligations.TwosComplementNegatesModuloTwoToTheWidth :=
  fun _ B => ⟨rfl, by rw [twos_eq_neg]; exact BitVec.toNat_neg B⟩

/-- Settles O16: the answer is a decoded word, and encoding sees an operand only modulo `2^W`. -/
theorem everyAluResultIsAnUnsignedWordOfTheReducedOperands :
    Obligations.EveryAluResultIsAnUnsignedWordOfTheReducedOperands := by
  intro i s a b hport
  refine ⟨_, exec_direct_answers i rfl hport, Int.natCast_nonneg _, ?_, ?_, ?_⟩
  · rw [aluExec]
    exact_mod_cast dec_lt _
  · rw [alu_encode, aluExec]
  · rw [enc_emod, enc_emod, alu_encode, aluExec]

end Sys2Proof.Machine
end

section
/-!
Fitting, and an SM as a function of its chunk (43_sm.md R171, R176).
-/

namespace Sys2Proof.Machine

variable {w : Nat}

/-- Fitting keeps the first `cap` pairs and pads on the right; at most one of the two does anything
(R171). -/
theorem fit_eq_take_append (cap : Nat) (chunk : List (OperandPair w)) :
    fit cap chunk = chunk.take cap ++ List.replicate (cap - chunk.length) (paddingPair w) := by
  unfold fit
  split
  · next hlong => rw [Nat.sub_eq_zero_of_le hlong.le, List.replicate_zero, List.append_nil]
  · next hshort => rw [List.take_of_length_le (not_lt.1 hshort)]

/-- Every operation takes two zero operands to zero. -/
theorem aluOp_zero (i : Instr) : aluOp (.op i) (0 : Word w) 0 = 0 := by
  cases i with
  | add => simp [aluOp, aluAdd_eq_add]
  | sub => simp [aluOp, aluSub_eq_sub]
  | and => simp [aluOp, aluAnd]
  | or => simp [aluOp, aluOr]
  | xor => simp [aluOp, aluXor]
  | mul => simp [aluOp, aluMul_eq_mul]
  | div => simp [aluOp, aluDiv, dec]
  | nop => rfl

/-- A padding pair gives 0 under every code (R171). -/
theorem alu_zero (code : Code) : alu (0 : Word w) 0 code = 0 := by
  obtain ⟨i, rfl, -⟩ := exists_encode code
  rw [alu_encode, aluOp_zero]

/-- Settles O17: `fit_eq_take_append` and `alu_zero`. -/
theorem fitTruncatesOrPadsWithPairsThatGiveZero : Obligations.FitTruncatesOrPadsWithPairsThatGiveZero :=
  ⟨fun _ cap chunk => ⟨fit_eq_take_append cap chunk, fit_length cap chunk⟩, fun _ => alu_zero⟩

/-- Settles O19: a round of a shaped SM leaves the groups of the fitted chunk, run, in local memory. -/
theorem roundComputesTheSmFunction : Obligations.RoundComputesTheSmFunction :=
  fun _ c code chunk _ hshaped =>
    ⟨SM.flat_round code chunk hshaped, smCompute_length c chunk code, SM.round_shaped chunk code hshaped⟩

end Sys2Proof.Machine
end

section
/-!
Lanes, warps and SMs acting one at a time (42_lane_warp.md R154; 43_sm.md R175; 44_device.md R207): each
unit changes its own entries only, and reads nothing that another one changes.
-/

namespace Sys2Proof.Machine

variable {w : Nat}

/-- Changing the entries one at a time, each of them once, in any order, changes every entry. -/
theorem foldl_modify_eq_mapIdx {α : Type} (f : Nat → α → α) {order : List Nat} {l : List α}
    (h : order.Perm (List.range l.length)) :
    order.foldl (fun l k => l.modify k (f k)) l = l.mapIdx f := by
  refine List.ext_getElem? fun i => ?_
  rw [foldl_modify_getElem? f order l (h.nodup_iff.2 List.nodup_range), List.getElem?_mapIdx]
  split
  · rfl
  · next hi =>
    have hlen : l.length ≤ i := by simpa [h.mem_iff] using hi
    simp [hlen]

/-- If every entry is changed in one way, that is a map. -/
theorem foldl_modify_eq_map {α : Type} (f : α → α) {order : List Nat} {l : List α}
    (h : order.Perm (List.range l.length)) :
    order.foldl (fun l k => l.modify k f) l = l.map f := by
  rw [foldl_modify_eq_mapIdx (fun _ => f) h]
  exact List.ext_getElem? fun i => by simp

/-! ### Lanes -/

/-- The lanes acting one at a time change the lane list one entry at a time. -/
theorem Warp.runInOrder_lanes (code : Code) (order : List Nat) (wp : Warp w) :
    wp.runInOrder code order =
      ⟨order.foldl (fun lanes l => lanes.modify l (Lane.run code)) wp.lanes⟩ := by
  unfold Warp.runInOrder
  induction order generalizing wp with
  | nil => rfl
  | cons l order ih => exact ih _

/-- Settles O20: each lane is run once, on its own registers. -/
theorem laneOrderIsNotObservable : Obligations.LaneOrderIsNotObservable := by
  intro w code wp order horder
  rw [Warp.runInOrder_lanes, foldl_modify_eq_map (Lane.run code) horder, Warp.run]

/-! ### Warps -/

/-- What warp `k` of `sm` writes into its row of local memory when it runs and gathers. -/
def SM.writeWarpRow (code : Code) (sm : SM w) (k : Nat) (row : List (Word w)) : List (Word w) :=
  writeRow row (Warp.run code (sm.warps.getD k ⟨[]⟩)).gatherResults

/-- Warps that act one at a time, each at most once, change warps and rows one entry at a time: a warp that
has not acted yet still stands as it did in `sm`. -/
theorem SM.runInOrder_eq (code : Code) (sm : SM w) (order : List Nat) (hnodup : order.Nodup) :
    sm.runInOrder code order =
      { warps := order.foldl (fun warps k => warps.modify k (Warp.run code)) sm.warps
        localMem := order.foldl (fun lm k => lm.modify k (sm.writeWarpRow code k)) sm.localMem } := by
  induction order using List.reverseRecOn with
  | nil => rfl
  | append_singleton order k ih =>
    obtain ⟨hbefore, -, hk⟩ := List.nodup_append.1 hnodup
    have hk : k ∉ order := fun hmem => hk k hmem k (List.mem_singleton_self k) rfl
    have hwarp : (order.foldl (fun warps k => warps.modify k (Warp.run code)) sm.warps).getD k ⟨[]⟩ =
        sm.warps.getD k ⟨[]⟩ := by
      rw [List.getD_eq_getElem?_getD, foldl_modify_getElem? (fun _ => Warp.run code) _ _ hbefore,
        if_neg hk, List.getD_eq_getElem?_getD]
    rw [SM.runInOrder, List.foldl_concat, ← SM.runInOrder, ih hbefore]
    simp only [SM.runWarp, hwarp, List.foldl_concat]
    rfl

/-- The rows all written are those of the gather (R174). -/
theorem SM.mapIdx_writeWarpRow (code : Code) {sm : SM w} (hlen : sm.localMem.length = sm.warps.length) :
    sm.localMem.mapIdx (sm.writeWarpRow code) = (sm.run code).gather.localMem := by
  refine List.ext_getElem (by simp [SM.gather, SM.run, hlen]) fun k hk _ => ?_
  have hk : k < sm.warps.length := by simpa [hlen] using hk
  simp [SM.gather, SM.run, SM.writeWarpRow, hk]

/-- Settles O21: `SM.runInOrder_eq`, where the order holds every warp. -/
theorem warpOrderIsNotObservable : Obligations.WarpOrderIsNotObservable := by
  intro w code sm order hlen horder
  rw [SM.runInOrder_eq code sm order (horder.nodup_iff.2 List.nodup_range),
    foldl_modify_eq_map (Warp.run code) horder,
    foldl_modify_eq_mapIdx (sm.writeWarpRow code) (hlen ▸ horder), SM.mapIdx_writeWarpRow code hlen]
  rfl

/-! ### SMs -/

/-- SM `k`'s round on its own chunk (R207). -/
def Device.roundOf (c : Config) (code : Code) (d : Device w) (k : Nat) (sm : SM w) : SM w :=
  sm.round c code (chunkPairs d.pairs (d.chunks.getD k ⟨0, 0⟩))

/-- The SMs acting one at a time change the arena one entry at a time, and nothing that a round reads. -/
theorem Device.runInOrder_eq (c : Config) (code : Code) (order : List Nat) (d : Device w) :
    d.runInOrder c code order =
      { d with sms := order.foldl (fun sms k => sms.modify k (d.roundOf c code k)) d.sms } := by
  unfold Device.runInOrder
  induction order generalizing d with
  | nil => rfl
  | cons k order ih => exact ih _

/-- All rounds together are the dispatch. -/
theorem Device.mapIdx_roundOf (c : Config) (code : Code) {d : Device w}
    (hlen : d.chunks.length = d.sms.length) : d.sms.mapIdx (d.roundOf c code) = d.dispatch c code := by
  refine List.ext_getElem (by simp [Device.dispatch, hlen]) fun k hk _ => ?_
  have hk : k < d.chunks.length := by simpa [hlen] using hk
  simp [Device.dispatch, Device.roundOf, hk]

/-- Settles O22: each SM does its own round once. -/
theorem smOrderIsNotObservable : Obligations.SmOrderIsNotObservable := by
  intro w c code d order hlen horder
  rw [Device.runInOrder_eq, foldl_modify_eq_mapIdx (d.roundOf c code) horder,
    Device.mapIdx_roundOf c code hlen]

end Sys2Proof.Machine
end

section
/-!
The two splits (44_device.md R200, R204, R210): in order, covering the stream, and how long each chunk is.
-/

namespace Sys2Proof.Machine

/-- A DOT chunk beyond the last one would start where the stream ends. -/
theorem dotChunk_start_end {N S : Nat} (hS : 0 < S) : (dotChunk N S S).start = N := by
  simp only [dotChunk, Nat.min_eq_right (Nat.mod_lt N hS).le, Nat.div_add_mod]

/-- Settles O38: a chunk's length depends on its number by the `if` of R200 alone. -/
theorem dotSplitIsContiguousAndNearEqual : Obligations.DotSplitIsContiguousAndNearEqual := by
  intro N S hS
  refine ⟨by simp [dotChunk], dotChunk_start_succ N S, ?_, fun j k hjk => ?_⟩
  · rw [← dotChunk_start_succ, Nat.sub_add_cancel hS, dotChunk_start_end hS]
  · simp only [dotChunk]
    split <;> split <;> omega

/-- A MATMUL chunk beyond the last one would start where the stream ends. -/
theorem matmulChunk_start_end {T S : Nat} (hS : 0 < S) : (matmulChunk T S S).start = T :=
  Nat.min_eq_right (le_ceilDiv_mul T S hS)

/-- Settles O39: chunk `k` is what `[k·P, (k+1)·P)` holds of the stream. -/
theorem matmulSplitIsContiguousAndFull : Obligations.MatmulSplitIsContiguousAndFull := by
  intro T S hS
  refine ⟨by simp [matmulChunk], matmulChunk_start_succ T S, ?_, fun k => ?_, fun k hnext => ?_⟩
  · rw [← matmulChunk_start_succ, Nat.sub_add_cancel hS, matmulChunk_start_end hS]
  · simp only [matmulChunk, Nat.succ_mul]
    omega
  · simp only [matmulChunk, Nat.succ_mul] at hnext ⊢
    omega

/-- Settles O26: `smOf_matmulSplit` and `realResult_matmulSplit`. -/
theorem realIndicesAreThoseBelowTheCapacity : Obligations.RealIndicesAreThoseBelowTheCapacity :=
  fun _ cap _ _ rs hS _ hp => ⟨smOf_matmulSplit hS hp, realResult_matmulSplit cap rs hS hp⟩

end Sys2Proof.Machine
end

section
/-!
Every state that a run meets (10_state.md R36; 70_reset_and_hazards.md R281): reset meets the invariant, and
under it no request stops the machine.
-/

namespace Sys2Proof.Machine

/-- An SM at reset has its shape (43_sm.md R170). -/
theorem SM.reset_shaped (c : Config) : (SM.reset c).shaped c := by
  refine ⟨List.length_replicate, fun wp hwp => ?_, List.length_replicate, fun row hrow => ?_⟩
  · rw [List.eq_of_mem_replicate hwp, List.length_replicate]
  · rw [List.eq_of_mem_replicate hrow, List.length_replicate]

/-- The block at reset: an empty memory, a shaped arena, and nothing loaded or partitioned (R36). -/
theorem Device.reset_inv (c : Config) : (Device.reset c).Inv c := by
  refine ⟨⟨⟨List.Pairwise.nil, by simp [Device.reset]⟩, by simp [Device.reset]⟩,
    ⟨List.length_replicate, fun sm hsm => ?_⟩, rfl, rfl, rfl, rfl⟩
  rw [List.eq_of_mem_replicate hsm]
  exact SM.reset_shaped c

/-- Settles O50: construction is `Device.reset`, for every configuration. -/
theorem resetMeetsTheInvariant : Obligations.ResetMeetsTheInvariant :=
  ⟨Device.reset_inv, Device.reset_inv Config.built⟩

/-! ### Every request is answered -/

section Answers
variable {s : State}

theorem devicePartition_answers (hinv : s.Inv) : ∃ t, devicePartition s = .next t := by
  obtain ⟨-, -, hwork, -⟩ := hinv
  cases hp : s.dev.phase.hasWorkload with
  | false => exact ⟨_, devicePartition_empty hp⟩
  | true =>
    obtain ⟨ps, ts, cs, hps⟩ := partitionOf_total (S := s.cfg.S) (hwork.holds hp)
    exact ⟨_, devicePartition_ok hp (Device.partition_ok hps)⟩

theorem deviceExecute_answers (code : Code) (hinv : s.Inv) : ∃ t, deviceExecute code s = .next t := by
  obtain ⟨-, -, hwork, -⟩ := hinv
  cases hp : s.dev.phase.hasPartition with
  | false => exact ⟨_, deviceExecute_outOfPhase hp⟩
  | true =>
    by_cases hc : code = encode .mul
    · obtain ⟨m, hm⟩ := Device.accumulateInto_total (resultStream (s.dev.dispatch s.cfg code))
        (hwork.holds (Phase.hasWorkload_of_hasPartition hp))
      exact ⟨_, deviceExecute_ok hp hc (Device.execute_ok hm)⟩
    · exact ⟨_, deviceExecute_unsupported hp hc⟩

theorem deviceReconstruct_answers (hinv : s.Inv) : ∃ t, deviceReconstruct s = .next t := by
  obtain ⟨-, -, hwork, -⟩ := hinv
  cases hp : s.dev.phase.hasWorkload with
  | false => exact ⟨_, deviceReconstruct_empty hp⟩
  | true =>
    obtain ⟨data, hdata⟩ := Device.output_total (hwork.holds hp)
    exact ⟨_, deviceReconstruct_ok hp hdata⟩

/-- Under the invariant every request is answered: a workload past its phase check has all it needs. -/
theorem runCommand_answers (cmd : Command) (hinv : s.Inv) : ∃ t, runCommand cmd s = .next t := by
  cases cmd with
  | load opA opB name => exact deviceLoad_answers opA opB name s
  | partition => exact devicePartition_answers hinv
  | execute code =>
    rw [runCommand, runExecute_eq]
    exact deviceExecute_answers (s := { s with port := .device }) code hinv
  | reconstruct => exact deviceReconstruct_answers hinv
  | alu a b form => exact ⟨_, runAlu_eq a b (decode form) s⟩

end Answers

/-- Settles O52: an idle step answers, and so does every request. -/
theorem everyStepAnswers : Obligations.EveryStepAnswers := by
  intro s hinv
  cases hp : s.pending with
  | nil => exact ⟨s, step_idle hp⟩
  | cons req rest =>
    rw [step_request hp]
    exact runCommand_answers (s := { s with pending := rest }) req.val hinv

end Sys2Proof.Machine
end

section
/-!
What a later PARTITION or EXECUTE finds (10_state.md R37; 44_device.md R205, R213): the stale arena is
overwritten before it is read, and either command again rewrites the same values.
-/

namespace Sys2Proof.Machine

variable {w : Nat}

/-! ### PARTITION again -/

/-- Settles O40: once partitioned, the partition state is already what the operands determine. -/
theorem repeatedPartitionRewritesTheSameValues : Obligations.RepeatedPartitionRewritesTheSameValues := by
  intro s rest hinv hnext hphase
  obtain ⟨-, -, -, hpart⟩ := hinv
  have hne : s.dev.phase ≠ .empty := by rcases hphase with h | h <;> simp [h]
  exact step_partition hnext hne (hpart.partitionOf_eq (Phase.hasPartition_iff.2 hphase))

/-! ### Another arena in place -/

/-- The rounds of a dispatch overwrite the whole arena: they leave the same one whatever stood there. -/
theorem Device.dispatch_arena {c : Config} {d : Device w} {sms : List (SM w)} (code : Code)
    (h : shapedArena c d.sms) (h' : shapedArena c sms) :
    Device.dispatch c code { d with sms := sms } = d.dispatch c code := by
  obtain ⟨hS, hshaped⟩ := h
  obtain ⟨hS', hshaped'⟩ := h'
  refine List.ext_getElem (by simp [Device.dispatch, hS, hS']) fun k hk hk' => ?_
  simp only [Device.dispatch, List.getElem_zipWith]
  rw [SM.round_eq _ _ (hshaped' _ (List.getElem_mem _)), SM.round_eq _ _ (hshaped _ (List.getElem_mem _))]

/-- EXECUTE's effect from another shaped arena is the very same: accumulation reads the dispatch only. -/
theorem Device.execute_arena {c : Config} {d d' : Device w} {sms : List (SM w)} {code : Code}
    (harena : shapedArena c d.sms) (hsms : shapedArena c sms) (h : d.execute c code = .ok d') :
    Device.execute c code { d with sms := sms } = .ok d' := by
  obtain ⟨m, hm, rfl⟩ := Device.execute_eq_ok h
  have hdispatch := Device.dispatch_arena code harena hsms
  rw [Device.execute_ok (d := { d with sms := sms }) (m := m) (by rw [hdispatch]; exact hm), hdispatch]

/-- The same state with the arena `sms` in place of its own. -/
def State.withArena (s : State) (sms : List (SM s.cfg.W)) : State :=
  { s with dev := { s.dev with sms := sms } }

section OtherArena
variable {s t : State} {sms : List (SM s.cfg.W)}

/-- From another shaped arena a request answers the same next state but for the arena, which is kept, or
which EXECUTE has overwritten whole. -/
theorem runCommand_withArena {cmd : Command} (hinv : s.Inv) (hsms : shapedArena s.cfg sms)
    (h : runCommand cmd s = .next t) :
    ∃ sms', shapedArena t.cfg sms' ∧ runCommand cmd (s.withArena sms) = .next (t.withArena sms') := by
  cases cmd with
  | load opA opB name =>
    rcases deviceLoad_cases h with ⟨op, st, hl, rfl⟩ | ⟨e, hl, rfl⟩
    · exact ⟨sms, hsms, deviceLoad_ok (s := s.withArena sms) hl⟩
    · exact ⟨sms, hsms, deviceLoad_error (s := s.withArena sms) hl⟩
  | partition =>
    rcases devicePartition_cases h with ⟨hp, d, hd, rfl⟩ | ⟨hp, rfl⟩
    · obtain ⟨ps, ts, cs, hps, rfl⟩ := Device.partition_eq_ok hd
      exact ⟨sms, hsms, devicePartition_ok (s := s.withArena sms) hp (Device.partition_ok hps)⟩
    · exact ⟨sms, hsms, devicePartition_empty (s := s.withArena sms) hp⟩
  | execute code =>
    simp only [runCommand, runExecute_eq] at h ⊢
    rcases deviceExecute_cases h with ⟨hp, hc, d, hd, rfl⟩ | ⟨hp, hc, rfl⟩ | ⟨hp, rfl⟩
    · have hchunks := Device.Inv.chunks_length hinv
      obtain ⟨-, harena, -, -⟩ := hinv
      have hd' := Device.execute_arena harena hsms hd
      obtain ⟨m, -, rfl⟩ := Device.execute_eq_ok hd
      exact ⟨s.dev.dispatch s.cfg code, Device.dispatch_shaped code hchunks harena,
        deviceExecute_ok (s := { s.withArena sms with port := .device }) hp hc hd'⟩
    · exact ⟨sms, hsms, deviceExecute_unsupported (s := { s.withArena sms with port := .device }) hp hc⟩
    · exact ⟨sms, hsms, deviceExecute_outOfPhase (s := { s.withArena sms with port := .device }) hp⟩
  | reconstruct =>
    rcases deviceReconstruct_cases h with ⟨hp, data, hd, rfl⟩ | ⟨hp, rfl⟩
    · exact ⟨sms, hsms, deviceReconstruct_ok (s := s.withArena sms) hp hd⟩
    · exact ⟨sms, hsms, deviceReconstruct_empty (s := s.withArena sms) hp⟩
  | alu a b form =>
    simp only [runCommand, runAlu_eq, Host.Outcome.next.injEq] at h ⊢
    subst h
    exact ⟨sms, hsms, rfl⟩

end OtherArena

/-- Settles O30: an idle step keeps the arena in place, and a request is `runCommand_withArena`. -/
theorem noStepLeaksTheStaleArena : Obligations.NoStepLeaksTheStaleArena := by
  intro s t sms hinv hsms hstep
  rcases step_cases hstep with ⟨hidle, rfl⟩ | ⟨req, rest, hp, hrun⟩
  · exact ⟨sms, hsms, step_idle (s := t.withArena sms) hidle⟩
  · obtain ⟨sms', hsms', hrun'⟩ := runCommand_withArena (s := { s with pending := rest }) hinv hsms hrun
    exact ⟨sms', hsms', (step_request (s := s.withArena sms) hp).trans hrun'⟩

/-! ### EXECUTE again -/

/-- EXECUTE of MUL in phase answers with the whole effect of `Device.execute`. -/
theorem exec_mul_eq_next {s t : State} (hport : s.port = .device)
    (hphase : s.dev.phase = .partitioned ∨ s.dev.phase = .executed) :
    exec .mul s = .next t ↔
      ∃ d, s.dev.execute s.cfg (encode .mul) = .ok d ∧ t = (s.setDev d).succeed none := by
  rw [exec_device .mul hport, deviceExecute, if_pos (Phase.hasPartition_iff.2 hphase), if_pos rfl,
    answerWith_eq_next]

/-- Settles O29: EXECUTE answers, and by `Device.execute_arena` with the same next state. -/
theorem executeDoesNotReadTheStaleArena : Obligations.ExecuteDoesNotReadTheStaleArena := by
  intro s sms hinv hsms hport hphase
  obtain ⟨t, ht⟩ := deviceExecute_answers (encode .mul) hinv
  obtain ⟨-, harena, -, -⟩ := hinv
  rw [← exec_device .mul hport] at ht
  obtain ⟨d, hd, rfl⟩ := (exec_mul_eq_next hport hphase).1 ht
  rw [ht]
  exact (exec_mul_eq_next (s := s.withArena sms) hport hphase).2
    ⟨d, Device.execute_arena harena hsms hd, rfl⟩

/-- Accumulating the same results again changes no cell: they are written, not added to what stands there
(R209, D14). -/
theorem Device.accumulateInto_idem {c : Config} {d : Device w} {rs : List (Word w)} {m : Memory}
    (h : d.accumulateInto c rs = .ok m) (hmem : d.gmem.Inv c.G) :
    Device.accumulateInto c { d with gmem := m } rs = .ok m := by
  obtain ⟨hm, -⟩ := Device.accumulateInto_inv h hmem
  obtain ⟨hd, -⟩ := hmem
  obtain ⟨m', hacc, hwf, hout, hother⟩ := Device.accumulateInto_gmem h m
  have hsame : m' = m := by
    refine Memory.ext (hwf hm) hm fun cell => ?_
    by_cases hcell : d.outputCell cell
    · exact hout hd hm cell hcell
    · exact (hother cell hcell).1
  rw [hacc, hsame]

/-- EXECUTE's effect again is the same effect: neither the rounds nor the writes depend on what the first one
left (R213). -/
theorem Device.execute_idem {c : Config} {code : Code} {d d' : Device w} (hinv : d.Inv c)
    (h : d.execute c code = .ok d') : d'.execute c code = .ok d' := by
  have hchunks := hinv.chunks_length
  obtain ⟨hmem, harena, -, -⟩ := hinv
  obtain ⟨m, hm, rfl⟩ := Device.execute_eq_ok h
  have hdispatch : Device.dispatch c code
      { d with sms := d.dispatch c code, gmem := m, phase := .executed } = d.dispatch c code :=
    Device.dispatch_arena code harena (Device.dispatch_shaped code hchunks harena)
  rw [Device.execute_ok (m := m), hdispatch]
  rw [hdispatch]
  exact Device.accumulateInto_idem hm hmem

/-- Settles O31: `Device.execute_idem`, in phase EXECUTED. -/
theorem repeatedExecuteRewritesTheSameValues : Obligations.RepeatedExecuteRewritesTheSameValues := by
  intro s t hinv hport hphase hexec
  obtain ⟨d, hd, rfl⟩ := (exec_mul_eq_next hport hphase).1 hexec
  have hexecuted : d.phase = .executed := by
    obtain ⟨m, -, rfl⟩ := Device.execute_eq_ok hd
    rfl
  exact (exec_mul_eq_next (s := (s.setDev d).succeed none) hport (.inr hexecuted)).2
    ⟨d, Device.execute_idem hinv hd, rfl⟩

end Sys2Proof.Machine
end

section
/-!
EXECUTE's result stream of truncated products (44_device.md R208), and its sum.
-/

namespace Sys2Proof.Machine

variable {w : Nat}

/-- The result stream has `CAP` entries for every SM (R208). -/
theorem resultStream_dispatch_length {c : Config} {d : Device w} (code : Code) (h : shapedArena c d.sms)
    (hlen : d.chunks.length = c.S) : (resultStream (d.dispatch c code)).length = c.S * c.CAP := by
  rw [resultStream_dispatch code h hlen, flatten_length _ c.CAP, List.length_map, hlen]
  intro l hl
  obtain ⟨ch, -, rfl⟩ := List.mem_map.1 hl
  exact smCompute_length ..

/-- Settles O24: a place below the chunk's end holds the product of its pair, any other the padding's
zero. -/
theorem resultStreamHoldsTheProductsOfEachChunk : Obligations.ResultStreamHoldsTheProductsOfEachChunk := by
  intro w c d harena hlen hend
  refine ⟨resultStream_dispatch_length _ harena hlen, fun k hk u hu => ?_⟩
  obtain ⟨ch, hch⟩ : ∃ ch, d.chunks[k]? = some ch := ⟨_, List.getElem?_eq_getElem (hlen ▸ hk)⟩
  have hentry := resultStream_dispatch_getElem? (encode .mul) harena hlen hch hu rfl
  rw [List.getD_eq_getElem?_getD, chunkPairs_getElem?] at hentry
  refine ⟨ch, hch, ?_⟩
  split
  · next hreal =>
    have hplace : ch.start + u < d.pairs.length := by
      have := hend ch (List.mem_of_getElem? hch)
      omega
    rw [if_pos (by omega), List.getElem?_eq_getElem hplace, Option.getD_some, alu_encode] at hentry
    exact ⟨_, _, List.getElem?_eq_getElem hplace, hentry, dec_aluMul _ _⟩
  · next hpadding =>
    rw [if_neg (by omega), Option.getD_none, alu_zero] at hentry
    exact hentry

/-! ### The sum of the stream -/

/-- The sum over a list, by index. -/
theorem sum_map_eq_sum_range {α : Type} (f : α → Nat) (l : List α) (x : α) :
    (l.map f).sum = ∑ i ∈ Finset.range l.length, f (l.getD i x) := by
  induction l with
  | nil => rfl
  | cons a l ih => simp [Finset.sum_range_succ', ih, Nat.add_comm]

/-- The results of an SM that runs MUL add up to the truncated products of the pairs it keeps: the dropped
ones are not there, and padding adds 0 (90_conflicts.md C5). -/
theorem sum_smCompute_mul (c : Config) (chunk : List (OperandPair w)) :
    ((smCompute c chunk (encode .mul)).map dec).sum =
      ∑ u ∈ Finset.range (min chunk.length c.CAP),
        dec (chunk.getD u (paddingPair w)).A * dec (chunk.getD u (paddingPair w)).B % 2 ^ w := by
  have hprod (p : OperandPair w) : dec (alu p.A p.B (encode .mul)) = dec p.A * dec p.B % 2 ^ w := by
    rw [alu_encode]
    exact dec_aluMul _ _
  have hpadding : dec (alu (paddingPair w).A (paddingPair w).B (encode .mul)) = 0 := by
    rw [alu_zero]
    exact BitVec.toNat_zero
  have hkept : ∀ u ∈ Finset.range (min chunk.length c.CAP),
      (chunk.take c.CAP).getD u (paddingPair w) = chunk.getD u (paddingPair w) := by
    intro u hu
    have hu := Finset.mem_range.1 hu
    rw [List.getD_eq_getElem?_getD, List.getElem?_take_of_lt (by omega), List.getD_eq_getElem?_getD]
  rw [smCompute, fit_eq_take_append, List.map_map, List.map_append, List.sum_append, List.map_replicate,
    sum_map_eq_sum_range _ _ (paddingPair w), List.length_take, Nat.min_comm]
  simp only [Function.comp_apply, hpadding, hprod, List.sum_replicate, smul_zero, Nat.add_zero]
  exact Finset.sum_congr rfl fun u hu => by rw [hkept u hu]

/-- The stream of a DOT EXECUTE adds up to the truncated products of the pairs that no SM drops (R219). -/
theorem sum_stream_dot (c : Config) {a b : List (Word w)} (hlen : a.length = b.length) :
    (((dotSplit a.length c.S).map fun ch =>
        smCompute c (chunkPairs (dotPairs a b) ch) (encode .mul)).flatten.map dec).sum =
      ∑ k ∈ Finset.range c.S, ∑ u ∈ Finset.range (min (dotChunk a.length c.S k).len c.CAP),
        dec (a.getD ((dotChunk a.length c.S k).start + u) 0) *
          dec (b.getD ((dotChunk a.length c.S k).start + u) 0) % 2 ^ w := by
  rw [List.map_flatten, List.sum_flatten, dotSplit, List.map_map, List.map_map, List.map_map,
    sum_map_eq_sum_range _ _ 0, List.length_range]
  refine Finset.sum_congr rfl fun k hk => ?_
  have hk := Finset.mem_range.1 hk
  have hend : (dotChunk a.length c.S k).start + (dotChunk a.length c.S k).len ≤ a.length :=
    dotSplit_end_le (List.mem_map.2 ⟨k, List.mem_range.2 hk, rfl⟩)
  have hnum : (List.range c.S).getD k 0 = k := by simp [hk]
  simp only [Function.comp_apply, hnum]
  rw [sum_smCompute_mul, chunkPairs_length _ _ (by rwa [dotPairs_length hlen])]
  refine Finset.sum_congr rfl fun u hu => ?_
  have hu := Finset.mem_range.1 hu
  rw [List.getD_eq_getElem?_getD, chunkPairs_getElem?, if_pos (by omega),
    dotPairs_getElem? hlen (by omega), Option.getD_some]

end Sys2Proof.Machine
end

section
/-!
The runs LOAD, PARTITION, EXECUTE, RECONSTRUCT (44_device.md section 6; 60_exceptions.md R259;
70_reset_and_hazards.md R272 to R278).
-/

namespace Sys2Proof.Machine

/-! ### The four steps -/

/-- The program of a whole run on the operands `opA` and `opB` (R219, R220). -/
def wholeRun (opA opB : Operand) (name : OpName) : List Command :=
  [.load opA opB name, .partition, .execute (encode .mul), .reconstruct]

/-- Requests whose commands are a whole run are those commands, in order. -/
theorem pending_of_wholeRun {pending : List Request} {opA opB : Operand} {name : OpName}
    (h : (pending.map Subtype.val).take 4 = wholeRun opA opB name) :
    ∃ hwf, pending = ⟨.load opA opB name, hwf⟩ :: ⟨.partition, rfl⟩ ::
      ⟨.execute (encode .mul), rfl⟩ :: ⟨.reconstruct, rfl⟩ :: pending.drop 4 := by
  match pending with
  | [] | [_] | [_, _] | [_, _, _] => simp [wholeRun] at h
  | ⟨c₁, h₁⟩ :: ⟨c₂, h₂⟩ :: ⟨c₃, h₃⟩ :: ⟨c₄, h₄⟩ :: rest =>
    simp only [wholeRun, List.map_cons, List.take_succ_cons, List.take_zero, List.cons.injEq] at h
    obtain ⟨rfl, rfl, rfl, rfl, -⟩ := h
    exact ⟨h₁, rfl⟩

/-- A step that answers is the first of a run. -/
theorem run_succ_of_step {M : Host.Core} {s u : M.State} (h : M.step s = .next u) (n : Nat) :
    M.run (n + 1) s = M.run n u := by
  rw [Host.Core.run, h]

section Run
variable {s : State} {op : Operation} {st : OperandStore s.cfg.W} {ps : List (OperandPair s.cfg.W)}
  {ts : List TaskCoord} {cs : List Chunk}

/-- The state in which the EXECUTE of a whole run begins: `s` with the workload loaded and partitioned, and
RECONSTRUCT pending after it. -/
def State.readyToExecute (s : State) (op : Operation) (st : OperandStore s.cfg.W)
    (ps : List (OperandPair s.cfg.W)) (ts : List TaskCoord) (cs : List Chunk) : State :=
  { s with
    port := .device
    pending := ⟨.reconstruct, rfl⟩ :: s.pending.drop 4
    dev := { s.dev with
      operation := op
      store := st
      pairs := ps
      taskMap := ts
      chunks := cs
      phase := .partitioned }
    responses := s.responses ++ [.device .success none, .device .success none] }

/-- It meets the invariant: the memory and arena are those of `s`, the rest is what the two commands wrote. -/
theorem State.readyToExecute_inv (hinv : s.Inv) (hst : holdsWorkload s.cfg.G op st)
    (hps : partitionOf s.cfg.S op st = .ok (ps, ts, cs)) : (s.readyToExecute op st ps ts cs).Inv := by
  obtain ⟨hmem, harena, -, -⟩ := hinv
  exact ⟨hmem, harena, hst, hps⟩

/-- What LOAD of the run stores is a workload. -/
theorem wholeRun_holds {opA opB : Operand} {name : OpName}
    (hrun : (s.pending.map Subtype.val).take 4 = wholeRun opA opB name)
    (hload : loadOperands s.cfg.W s.cfg.G opA opB name = .ok (op, st)) : holdsWorkload s.cfg.G op st := by
  obtain ⟨hwf, -⟩ := pending_of_wholeRun hrun
  exact loadOperands_holds hwf hload

/-- A whole run is its LOAD and PARTITION, then MUL from `readyToExecute`, then RECONSTRUCT. -/
theorem run_wholeRun {opA opB : Operand} {name : OpName} {v t : State}
    (hrun : (s.pending.map Subtype.val).take 4 = wholeRun opA opB name)
    (hload : loadOperands s.cfg.W s.cfg.G opA opB name = .ok (op, st))
    (hps : partitionOf s.cfg.S op st = .ok (ps, ts, cs))
    (hexec : exec .mul (s.readyToExecute op st ps ts cs) = .next v) (hrec : step v = .next t) :
    Host.Core.run Sys2Proof.core 4 s = .next t := by
  obtain ⟨hwf, hpending⟩ := pending_of_wholeRun hrun
  have hready : State.readyToExecute s op st ps ts cs = { s with
      pending := ⟨.reconstruct, rfl⟩ :: s.pending.drop 4
      port := .device
      dev := (s.readyToExecute op st ps ts cs).dev
      responses := s.responses ++ [.device .success none] ++ [.device .success none] } := by
    rw [List.append_assoc]
    rfl
  rw [hready] at hexec
  refine (run_succ_of_step (M := core) (step_load_ok ⟨hwf, hpending⟩ hload) 3).trans ?_
  refine (run_succ_of_step (M := core) (step_partition ⟨rfl, rfl⟩ (by simp) hps) 2).trans ?_
  refine (run_succ_of_step (M := core)
    ((step_execute_of_decode ⟨rfl, rfl⟩ (decodeBits_encode .mul)).trans hexec) 1).trans ?_
  exact run_succ_of_step (M := core) hrec 0

end Run

end Sys2Proof.Machine
end

section
/-!
What whole runs answer (44_device.md R219, R220): the truncated sums, and under conditions (i) to (iv) the
exact ones.
-/

namespace Sys2Proof.Machine

/-! ### The answer of a run, from its EXECUTE on -/

/-- The next state of a successful EXECUTE that leaves the arena `sms` and the memory `gmem` (R213). -/
def State.executedWith (s : State) (sms : List (SM s.cfg.W)) (gmem : Memory) : State :=
  { s with
    dev := { s.dev with sms := sms, gmem := gmem, phase := .executed }
    responses := s.responses ++ [.device .success none] }

/-- The first four requests pending in `s` run unfaulted to phase EXECUTED, with three successes and
`data`. -/
def State.runAnswers (s : State) (data : Data) : Prop :=
  ∃ t : State, s.runsTo 4 t ∧ t.pending = s.pending.drop 4 ∧ t.dev.phase = .executed ∧
    t.responses = s.responses ++ [.device .success none, .device .success none,
      .device .success none, .device .success (some data)]

/-- A whole run answers what RECONSTRUCT reads after its EXECUTE. -/
theorem runAnswers_of_execute {s : State} {opA opB : Operand} {name : OpName} {op : Operation}
    {st : OperandStore s.cfg.W} {ps : List (OperandPair s.cfg.W)} {ts : List TaskCoord} {cs : List Chunk}
    {sms : List (SM s.cfg.W)} {gmem : Memory} {data : Data} (hnofault : s.noFault)
    (hrun : (s.pending.map Subtype.val).take 4 = wholeRun opA opB name)
    (hload : loadOperands s.cfg.W s.cfg.G opA opB name = .ok (op, st))
    (hps : partitionOf s.cfg.S op st = .ok (ps, ts, cs))
    (hexec : exec .mul (s.readyToExecute op st ps ts cs) =
      .next ((s.readyToExecute op st ps ts cs).executedWith sms gmem))
    (hdata : ((s.readyToExecute op st ps ts cs).executedWith sms gmem).dev.output s.cfg.G = .ok data) :
    s.runAnswers data := by
  have hrec := step_reconstruct
    (s := (s.readyToExecute op st ps ts cs).executedWith sms gmem) ⟨rfl, rfl⟩
    (by simp [State.executedWith]) hdata
  refine ⟨_, ⟨run_wholeRun hrun hload hps hexec hrec, hnofault⟩, rfl, rfl, ?_⟩
  simp [State.executedWith, State.readyToExecute]

/-! ### Encoded operands and truncated products -/

@[simp] theorem encodeAll_length (w : Nat) (data : List Int) : (encodeAll w data).length = data.length :=
  List.length_map _

/-- An element of the encoded operands is the encoded element; both read 0 beyond the end. -/
theorem encodeAll_getD (w : Nat) (data : List Int) (p : Nat) :
    (encodeAll w data).getD p 0 = enc w (data.getD p 0) := by
  have hzero : enc w 0 = 0 := by simp [enc]
  rw [← hzero]
  exact List.getD_map ..

/-- The product of two encoded integers, truncated to `w` bits (R131). -/
def truncatedProduct (w : Nat) (x y : Int) : Nat := dec (enc w x) * dec (enc w y) % 2 ^ w

/-- Operands and a product that fit the width are not truncated (70_reset_and_hazards.md R277). -/
theorem fitsWidth.truncatedProduct_eq {w : Nat} {x y : Int} (h : fitsWidth w x y) :
    (truncatedProduct w x y : Int) = x * y := by
  obtain ⟨hx, hx', hy, hy', hxy⟩ := h
  rw [truncatedProduct]
  push_cast
  rw [dec_enc, dec_enc, Int.emod_eq_of_lt hx hx', Int.emod_eq_of_lt hy hy',
    Int.emod_eq_of_lt (mul_nonneg hx hy) hxy]

/-- A sum that fits a cell is read back as it is (R278). -/
theorem toInt_of_fitsCell {n : Nat} {x : Int} (hn : (n : Int) = x) (h : fitsCell x) :
    (BitVec.ofNat 32 n).toInt = x := by
  unfold fitsCell at h
  rw [BitVec.toInt_ofNat', Int.bmod_eq_of_le (by omega) (by omega), hn]

/-! ### DOT -/

/-- The truncated products of the pairs that no SM drops, added up (R219). -/
def dotTruncatedSum (c : Config) (xs ys : List Int) : Nat :=
  ∑ k ∈ Finset.range c.S, ∑ u ∈ Finset.range (min (dotChunk xs.length c.S k).len c.CAP),
    truncatedProduct c.W (xs.getD ((dotChunk xs.length c.S k).start + u) 0)
      (ys.getD ((dotChunk xs.length c.S k).start + u) 0)

/-- It is the sum of the stream that an EXECUTE of the encoded operands leaves. -/
theorem sum_stream_dot_encodeAll (c : Config) {xs ys : List Int} (hlen : xs.length = ys.length) :
    (((dotSplit (encodeAll c.W xs).length c.S).map fun ch => smCompute c
        (chunkPairs (dotPairs (encodeAll c.W xs) (encodeAll c.W ys)) ch) (encode .mul)).flatten.map dec).sum =
      dotTruncatedSum c xs ys := by
  rw [sum_stream_dot c (by simpa using hlen)]
  simp only [encodeAll_getD, encodeAll_length]
  rfl

/-- A whole DOT run answers the truncated sum, read signed. -/
theorem dotRun_answers {s : State} {opA opB : Operand} {xs ys : List Int} (hinv : s.Inv)
    (hnofault : s.noFault) (hops : dotOperands opA opB xs ys) (hlen : xs.length = ys.length)
    (hpos : 0 < xs.length) (hrun : (s.pending.map Subtype.val).take 4 = wholeRun opA opB .dot) :
    s.runAnswers (.scalar (BitVec.ofNat 32 (dotTruncatedSum s.cfg xs ys)).toInt) := by
  obtain ⟨hwf, -⟩ := pending_of_wholeRun hrun
  obtain ⟨hA, hB⟩ := Bool.and_eq_true_iff.1 hwf
  have hload : loadOperands s.cfg.W s.cfg.G opA opB .dot =
      .ok (.dot, .vectors (encodeAll s.cfg.W xs) (encodeAll s.cfg.W ys)) := by
    rw [loadOperands, loadDot_eq_ok _ hops hA hB hlen hpos]
    rfl
  have hready := State.readyToExecute_inv hinv (wholeRun_holds hrun hload) rfl
  obtain ⟨gmem, hexec, -, hread, -⟩ :=
    executeDotWritesTheSumToCellZero _ hready rfl (.inl rfl) rfl
  have hsum : gmem.read 0 = BitVec.ofNat 32 (dotTruncatedSum s.cfg xs ys) :=
    hread.trans (congrArg _ (sum_stream_dot_encodeAll s.cfg hlen))
  rw [← hsum]
  exact runAnswers_of_execute hnofault hrun hload rfl hexec (Device.output_dot rfl)

/-- No DOT chunk is longer than `ceil(N / S)`. -/
theorem dotChunk_len_le_ceilDiv {N S : Nat} (hS : 0 < S) (k : Nat) :
    (dotChunk N S k).len ≤ ceilDiv N S := by
  have hdiv := Nat.div_add_mod' N S
  rw [ceilDiv, Nat.le_div_iff_mul_le hS]
  simp only [dotChunk]
  split
  · rw [Nat.succ_mul]
    omega
  · rw [Nat.add_zero]
    omega

/-- When no SM drops a pair and no product is truncated, the truncated sum is the inner product. -/
theorem dotTruncatedSum_eq {c : Config} {xs ys : List Int}
    (hwidth : ∀ p < xs.length, fitsWidth c.W (xs.getD p 0) (ys.getD p 0))
    (hcap : fitsCapacity c xs.length) :
    (dotTruncatedSum c xs ys : Int) = ∑ p ∈ Finset.range xs.length, xs.getD p 0 * ys.getD p 0 := by
  have hall (k : Nat) : min (dotChunk xs.length c.S k).len c.CAP = (dotChunk xs.length c.S k).len :=
    Nat.min_eq_left ((dotChunk_len_le_ceilDiv c.hS k).trans hcap)
  have hsum := sum_over_chunks (dotChunk_start_succ xs.length c.S) (by simp [dotChunk])
    (fun p => (truncatedProduct c.W (xs.getD p 0) (ys.getD p 0) : Int)) c.S
  rw [dotChunk_start_end c.hS] at hsum
  simp only [dotTruncatedSum, hall]
  push_cast
  rw [hsum]
  exact Finset.sum_congr rfl fun p hp => (hwidth p (Finset.mem_range.1 hp)).truncatedProduct_eq

/-- Settles O45: `dotRun_answers`. -/
theorem dotRunAnswersTheTruncatedSum : Obligations.DotRunAnswersTheTruncatedSum :=
  fun _ _ _ _ _ hinv hnofault hops hlen hpos hrun => dotRun_answers hinv hnofault hops hlen hpos hrun

/-- Settles O46: under the conditions the sum of `dotRun_answers` is the inner product, and fits a cell. -/
theorem dotRunAnswersTheInnerProduct : Obligations.DotRunAnswersTheInnerProduct := by
  intro s opA opB xs ys hinv hnofault hops hlen hpos hwidth hcap hcell hrun
  obtain ⟨t, hto, hpending, -, hresp⟩ := dotRun_answers hinv hnofault hops hlen hpos hrun
  rw [toInt_of_fitsCell (dotTruncatedSum_eq hwidth hcap) hcell] at hresp
  exact ⟨t, hto, hpending, hresp⟩

/-! ### MATMUL -/

/-- The truncated products of output cell `(i, j)` whose pairs no SM drops, added up (R220). -/
def matmulTruncatedSum (c : Config) (m k n : Nat) (xs ys : List Int) (i j : Nat) : Nat :=
  ∑ x ∈ Finset.range k, if ((i * n + j) * k + x) % ceilDiv (m * n * k) c.S < c.CAP then
    truncatedProduct c.W (xs.getD (i * k + x) 0) (ys.getD (x * n + j) 0) else 0

/-- It is the sum that an EXECUTE of the encoded operands accumulates. -/
theorem sum_encodeAll_matmul (c : Config) (m k n : Nat) (xs ys : List Int) (i j : Nat) :
    (∑ x ∈ Finset.range k, if ((i * n + j) * k + x) % ceilDiv (m * n * k) c.S < c.CAP then
      dec ((encodeAll c.W xs).getD (i * k + x) 0) * dec ((encodeAll c.W ys).getD (x * n + j) 0) % 2 ^ c.W
      else 0) = matmulTruncatedSum c m k n xs ys i j := by
  simp only [encodeAll_getD]
  rfl

/-- The `m × n` array with entry `f i j` in row `i` and column `j`. -/
def arrayOf (m n : Nat) (f : Nat → Nat → Int) : List (List Int) :=
  (List.range m).map fun i => (List.range n).map fun j => f i j

/-- Arrays with the same entries are the same. -/
theorem arrayOf_congr {m n : Nat} {f g : Nat → Nat → Int} (h : ∀ i < m, ∀ j < n, f i j = g i j) :
    arrayOf m n f = arrayOf m n g :=
  List.map_congr_left fun i hi => List.map_congr_left fun j hj =>
    h i (List.mem_range.1 hi) j (List.mem_range.1 hj)

/-- A whole MATMUL run answers the truncated sum of each output cell, read signed. -/
theorem matmulRun_answers {s : State} {m k n : Nat} {xs ys : List Int} (hinv : s.Inv)
    (hnofault : s.noFault) (hm : 0 < m) (hk : 0 < k) (hn : 0 < n) (hG : m * n ≤ s.cfg.G)
    (hrun : (s.pending.map Subtype.val).take 4 = wholeRun (.mat m k xs) (.mat k n ys) .matmul) :
    s.runAnswers (.array (arrayOf m n fun i j =>
      (BitVec.ofNat 32 (matmulTruncatedSum s.cfg m k n xs ys i j)).toInt)) := by
  have hload : loadOperands s.cfg.W s.cfg.G (.mat m k xs) (.mat k n ys) .matmul =
      .ok (.matmul, .matrices m k n (encodeAll s.cfg.W xs) (encodeAll s.cfg.W ys)) := by
    rw [loadOperands, loadMatmul_eq_ok _ _ _ hm hk hn hG]
    rfl
  have hready := State.readyToExecute_inv hinv (wholeRun_holds hrun hload) rfl
  obtain ⟨gmem, hexec, -, hread, -⟩ :=
    executeMatmulWritesEveryOutputCell _ m k n _ _ hready rfl (.inl rfl) rfl rfl
  have hsums : ∀ i < m, ∀ j < n,
      (BitVec.ofNat 32 (matmulTruncatedSum s.cfg m k n xs ys i j)).toInt =
        (gmem.read (i * n + j)).toInt := fun i hi j hj =>
    congrArg BitVec.toInt
      ((hread i hi j hj).trans (congrArg _ (sum_encodeAll_matmul s.cfg m k n xs ys i j))).symm
  rw [arrayOf_congr hsums]
  exact runAnswers_of_execute hnofault hrun hload rfl hexec (Device.output_matmul rfl rfl hG)

/-- When no SM drops a pair and no product is truncated, the truncated sum of a cell is its entry of the
matrix product. -/
theorem matmulTruncatedSum_eq {c : Config} {m k n i j : Nat} {xs ys : List Int} (hi : i < m) (hj : j < n)
    (hwidth : ∀ x < k, fitsWidth c.W (xs.getD (i * k + x) 0) (ys.getD (x * n + j) 0))
    (hcap : fitsCapacity c (m * n * k)) :
    (matmulTruncatedSum c m k n xs ys i j : Int) =
      ∑ x ∈ Finset.range k, xs.getD (i * k + x) 0 * ys.getD (x * n + j) 0 := by
  rw [matmulTruncatedSum, Nat.cast_sum]
  refine Finset.sum_congr rfl fun x hx => ?_
  have hx := Finset.mem_range.1 hx
  have hpos := ceilDiv_pos c.hS (Nat.zero_lt_of_lt (cell_lt (cell_lt hi hj) hx))
  rw [if_pos ((Nat.mod_lt _ hpos).trans_le hcap)]
  exact (hwidth x hx).truncatedProduct_eq

/-- Settles O47: `matmulRun_answers`. -/
theorem matmulRunAnswersTheTruncatedSums : Obligations.MatmulRunAnswersTheTruncatedSums :=
  fun _ _ _ _ _ _ hinv hnofault hm hk hn hG hrun => matmulRun_answers hinv hnofault hm hk hn hG hrun

/-- Settles O48: under the conditions each sum of `matmulRun_answers` is the entry of the matrix product, and
fits a cell. -/
theorem matmulRunAnswersTheMatrixProduct : Obligations.MatmulRunAnswersTheMatrixProduct := by
  intro s m k n xs ys hinv hnofault hm hk hn hG hwidth hcap hcell hrun
  obtain ⟨t, hto, hpending, -, hresp⟩ := matmulRun_answers hinv hnofault hm hk hn hG hrun
  rw [arrayOf_congr fun i hi j hj =>
    toInt_of_fitsCell (matmulTruncatedSum_eq hi hj (hwidth i hi j hj) hcap) (hcell i hi j hj)] at hresp
  exact ⟨t, hto, hpending, hresp⟩

end Sys2Proof.Machine
end
